-- ==== Sys2Proof/Word.lean ====
section
/-! DEFINITION. The two widths of the CORE: a byte (8 bits) and a word (32 bits), spec/00_scope.md, Notation. -/

namespace Sys2Proof

/-- A byte of memory, and an opcode (R7 `OPCODE_BITS`, R26). -/
abbrev Byte := BitVec 8

/-- A register value (R7 `XLEN`, R21). -/
abbrev Word := BitVec 32

end Sys2Proof
end

