-- ==== Sys2Proof/Config.lean ====
section
/-! DEFINITION. What the spec leaves to a parameter or to a free value (spec/00_scope.md R7). -/

namespace Sys2Proof

/-- The largest capacity a CORE can be constructed with (70_reset_and_hazards.md R191). -/
def Config.maxMemSize : Nat := 2 ^ 32

/-- DESIGN CHOICE (log entry 2): the capacity of `State.reset`. The spec leaves MEM_SIZE open (R7, D4);
it is a field of State, so every claim about every state holds for every capacity. Unsafe for a claim about
`State.reset` alone. -/
def Config.resetMemSize : Nat := Config.maxMemSize

/-- The free value INIT_FILL (R7, R33, 92_eei_decisions.md D12; log entry 1): `Config.initFill d a` is the byte an
instance that got draw `d` holds at address `a` until something is stored there. It has no body. Safe. -/
opaque Config.initFill : Nat → Nat → Byte

/-- The free value of `base` for an image of exactly 2^32 bytes, whose end no 32-bit register holds (R27, R194;
DESIGN CHOICE, log entry 3). It has no body. Safe. -/
opaque Config.fullImageBase : Word

/-- What the end-of-run definition does at an UnknownOpcode report (R7, R112): the parameter ON_UNKNOWN. -/
inductive OnUnknown where
  | stop
  | skip
  deriving DecidableEq, Repr

/-- The default of ON_UNKNOWN (R7). -/
def Config.onUnknownDefault : OnUnknown := .stop

end Sys2Proof
end

