-- ==== Sys2Proof/Syntax.lean ====
section
/-! DEFINITION. The names of registers, handlers and instructions, the shape of an opcode table row and of a decoding. -/

namespace Sys2Proof

/-- The closed set of nine registers (10_state.md R20). -/
inductive Reg where
  | eax | ecx | edx | ebx | esp | ebp | esi | edi | eip
  deriving DecidableEq, Repr

/-- Handler identifiers of the opcode table: in scope only `push` (30_encoding.md R83, D17). -/
inductive Handler where
  | push
  deriving DecidableEq, Repr

/-- One constructor per row of spec/opcode_table.json (30_encoding.md R83). No instruction has an operand field:
the opcode byte implies the register (R86). -/
inductive Instr where
  | pushEax   -- 0x50, R132
  | pushEcx   -- 0x51, R133
  | pushEdx   -- 0x52, R134
  | pushEbx   -- 0x53, R135
  | pushEsp   -- 0x54, R136
  | pushEbp   -- 0x55, R137
  | pushEsi   -- 0x56, R138
  | pushEdi   -- 0x57, R139
  deriving DecidableEq, Repr

/-- A row of the opcode table: byte, handler identifier, mnemonic, operand list (R83), and the instruction whose
rule of 41_push.md the row names. -/
structure TableEntry where
  opcode   : Byte
  handler  : Handler
  mnemonic : String
  operands : List Reg
  instr    : Instr
  deriving DecidableEq, Repr

/-- What decoding a byte answers: `Entry(handler, mnemonic, operands)` or `Unknown(b)` (R88). -/
inductive Decoded where
  | entry (e : TableEntry)
  | unknown (b : Byte)
  deriving DecidableEq, Repr

/-- Why a byte stream does not start with an instruction: there is no byte, or its first byte has no table entry (R84). -/
inductive DecodeReject where
  | noByte
  | unknownOpcode (b : Byte)
  deriving DecidableEq, Repr

end Sys2Proof
end

