-- ==== Sys2Proof/WellFormed.lean ====
section
/-! DEFINITION. The checks on terms that come from outside: a row of the opcode table, the table, a capacity.
An `Instr` has no field, so every instruction is well-formed and there is nothing to check in it (30_encoding.md R86). -/

namespace Sys2Proof

/-- The opcode has the fixed bits `01010` of format PR in `[7:3]` (30_encoding.md R82). -/
def TableEntry.hasFormatPR (e : TableEntry) : Bool := e.opcode.extractLsb' 3 5 == 0b01010#5

/-- The operand list is one general-purpose register (R82, R86): not `eip`, which has no encoding number (R22). -/
def TableEntry.hasOneOperand (e : TableEntry) : Bool :=
  match e.operands with
  | [r] => r != .eip
  | _ => false

/-- A row of the push-register family: format, operand and spelling (R82, R83, R89). -/
def TableEntry.wellFormed (e : TableEntry) : Bool :=
  e.hasFormatPR && e.hasOneOperand && e.mnemonic == "push"

/-- "at most one entry" per byte value (R83). -/
def opcodesDistinct : List TableEntry → Bool
  | [] => true
  | e :: es => es.all (fun f => f.opcode != e.opcode) && opcodesDistinct es

/-- A capacity a CORE can be constructed with (70_reset_and_hazards.md R191). -/
def memSizeWellFormed (memSize : Int) : Bool := decide (0 ≤ memSize ∧ memSize ≤ Config.maxMemSize)

end Sys2Proof
end

