-- ==== Sys2Proof/Decode.lean ====
section
/-! DEFINITION. The register numbers, the opcode table, the decoder and the encoder (spec/30_encoding.md, 10_state.md R22). -/

namespace Sys2Proof

/-- The 3-bit encoding number of a register; `eip` has none (R22). Numbers 2 to 7 are the spec's own (D3, G1). -/
def Reg.number? : Reg → Option (BitVec 3)
  | .eax => some 0
  | .ecx => some 1
  | .edx => some 2
  | .ebx => some 3
  | .esp => some 4
  | .ebp => some 5
  | .esi => some 6
  | .edi => some 7
  | .eip => none

/-- The register a 3-bit number names (R22, `reg_name` of R88). -/
def Reg.ofNumber (n : BitVec 3) : Reg :=
  match n.toNat with
  | 0 => .eax
  | 1 => .ecx
  | 2 => .edx
  | 3 => .ebx
  | 4 => .esp
  | 5 => .ebp
  | 6 => .esi
  | _ => .edi

/-- The register a 4-bit index of the inspection port names, if any (R22, 60_exceptions.md R175). -/
def Reg.ofPortIndex? (n : BitVec 4) : Option Reg :=
  match n.toNat with
  | 0 => some .eax
  | 1 => some .ecx
  | 2 => some .edx
  | 3 => some .ebx
  | 4 => some .esp
  | 5 => some .ebp
  | 6 => some .esi
  | 7 => some .edi
  | 8 => some .eip
  | _ => none

/-- A register's lowercase name (R20, R89). -/
def Reg.name : Reg → String
  | .eax => "eax"
  | .ecx => "ecx"
  | .edx => "edx"
  | .ebx => "ebx"
  | .esp => "esp"
  | .ebp => "ebp"
  | .esi => "esi"
  | .edi => "edi"
  | .eip => "eip"

/-- The closed set of registers, in port order (R20, R22). -/
def Reg.all : List Reg := [.eax, .ecx, .edx, .ebx, .esp, .ebp, .esi, .edi, .eip]

/-- The register a name denotes, or none outside the closed set (R20, 60_exceptions.md R163). -/
def Reg.ofName? (name : String) : Option Reg := Reg.all.find? (fun r => r.name == name)

/-- The opcode table: exactly these eight entries (R83, opcode_table.json). -/
def opcodeTable : List TableEntry :=
  [ ⟨0x50, .push, "push", [.eax], .pushEax⟩,
    ⟨0x51, .push, "push", [.ecx], .pushEcx⟩,
    ⟨0x52, .push, "push", [.edx], .pushEdx⟩,
    ⟨0x53, .push, "push", [.ebx], .pushEbx⟩,
    ⟨0x54, .push, "push", [.esp], .pushEsp⟩,
    ⟨0x55, .push, "push", [.ebp], .pushEbp⟩,
    ⟨0x56, .push, "push", [.esi], .pushEsi⟩,
    ⟨0x57, .push, "push", [.edi], .pushEdi⟩ ]

/-- Decoding: the whole byte is looked up in the opcode table; a byte with no entry is unknown (R81, R83, R84, R88). -/
def decode (b : Byte) : Decoded :=
  match opcodeTable.find? (fun e => e.opcode == b) with
  | some e => .entry e
  | none => .unknown b

/-- The instruction a byte encodes, if any (R83, R84). -/
def decodeInstr? (b : Byte) : Option Instr :=
  match decode b with
  | .entry e => some e.instr
  | .unknown _ => none

/-- The decoder that reads `reg` from bits `[2:0]` instead of the table (R82, R88). -/
def decodeByFields (b : Byte) : Option Reg :=
  if b.extractLsb' 3 5 = 0b01010#5 then some (Reg.ofNumber (b.extractLsb' 0 3)) else none

/-- Decoding at the front of a byte stream: the instruction and the bytes after it, or the reason by name. An
instruction in scope is exactly one byte long (R80). -/
def decodeBytes : List Byte → Except DecodeReject (Instr × List Byte)
  | [] => .error .noByte
  | b :: rest =>
    match decode b with
    | .entry e => .ok (e.instr, rest)
    | .unknown u => .error (.unknownOpcode u)

/-- Decoding a whole byte stream into instructions, up to the first byte that is not one; answers the bytes left. -/
def decodeStream : List Byte → List Instr × List Byte
  | [] => ([], [])
  | b :: rest =>
    match decode b with
    | .entry e => (e.instr :: (decodeStream rest).1, (decodeStream rest).2)
    | .unknown _ => ([], b :: rest)

/-- The byte at the front of an instruction whose bits are `w`, bit 0 its least significant, `nbits` of them given. -/
def tableByte (nbits w : Nat) : Byte := BitVec.ofNat 8 (w % 2 ^ nbits)

/-- The instruction the decoder reads from an opcode table row's bits (host interface). -/
def decodeTableWord (nbits w : Nat) : Option Instr :=
  match decodeBytes [tableByte nbits w] with
  | .ok (i, _) => some i
  | .error _ => none

/-- The register number in an instruction's `reg` field (R82, the rows `reg` = 0 to 7). -/
def Instr.regField : Instr → BitVec 3
  | .pushEax => 0
  | .pushEcx => 1
  | .pushEdx => 2
  | .pushEbx => 3
  | .pushEsp => 4
  | .pushEbp => 5
  | .pushEsi => 6
  | .pushEdi => 7

/-- The register an instruction pushes: the one its `reg` field names (R82, R86). -/
def Instr.operand (i : Instr) : Reg := Reg.ofNumber i.regField

/-- The encoder: format PR, `op5 = 01010` in `[7:3]` and `reg` in `[2:0]` (R82). -/
def encode (i : Instr) : Byte := (0b01010#5) ++ i.regField

/-- The bytes of a sequence of instructions, one byte each (R80). -/
def encodeAll (is : List Instr) : List Byte := is.map encode

/-- The assembler text of a table row: mnemonic and operand names (R89). -/
def TableEntry.asmText (e : TableEntry) : String :=
  e.mnemonic ++ " " ++ String.intercalate ", " (e.operands.map Reg.name)

/-- A hexadecimal digit. -/
def hexDigit (n : BitVec 4) : Char := ("0123456789ABCDEF".toList).getD n.toNat '0'

/-- A byte written in hexadecimal, as `0x50` (40_control_unit.md R108). -/
def hexByte (b : Byte) : String :=
  String.ofList ['0', 'x', hexDigit (b.extractLsb' 4 4), hexDigit (b.extractLsb' 0 4)]

end Sys2Proof
end

