-- ==== Sys2Proof/Machine/State.lean ====
section
/-! DEFINITION. The state of one CORE as plain data (spec/10_state.md R33), its values at construction and at reset. -/

namespace Sys2Proof.Machine

/-- Memory: the listed (address, byte) pairs, addresses strictly rising. A byte nothing has stored to is not listed,
and reads as the free value `Config.initFill` (10_state.md R25, R33; log entry 1). -/
abbrev Memory := List Host.Cell

/-- The lifecycle phase (10_state.md R29). -/
inductive Phase where
  | constructed | ready | faulted | initFailed
  deriving DecidableEq, Repr

/-- What an out-of-bounds access records: the mathematical address and the length (60_exceptions.md R162, D22). -/
structure OutOfBounds where
  addr : Int
  len  : Nat
  deriving DecidableEq, Repr

/-- What an UnknownRegister condition records: the name, or the port index (60_exceptions.md R160). -/
inductive RegRef where
  | name (n : String)
  | index (i : BitVec 4)
  deriving DecidableEq, Repr

/-- The outcome a host call returns, with what it records (40_control_unit.md R101, 60_exceptions.md R160). -/
inductive Report where
  | ok
  | unknownOpcode (b : Byte)
  | outOfBounds (e : OutOfBounds)
  | unknownRegister (r : RegRef)
  | capacityExceeded (total memSize : Nat)
  | refused
  deriving DecidableEq, Repr

/-- A trace record (40_control_unit.md R108): the four fields of an executed entry, or the kind `unknown` with its byte. -/
inductive TraceRecord where
  | executed (opcode : Byte) (mnemonic : String) (handler : Handler) (operands : List Reg)
  | unknown (opcode : Byte)
  deriving DecidableEq, Repr

/-- The register file: nine 32-bit registers (10_state.md R20, R21). -/
structure Regs where
  eax : Word
  ecx : Word
  edx : Word
  ebx : Word
  esp : Word
  ebp : Word
  esi : Word
  edi : Word
  eip : Word
  deriving DecidableEq, Repr

/-- The state of one CORE: the tuple of 10_state.md R33; the parameters fixed for the instance's lifetime (R7); and
what its last `init` or `next` call gave back (the model's own output fields, log entry 5). -/
structure State where
  /-- The register file (R20). -/
  regs : Regs
  /-- The memory (R25). -/
  mem : Memory
  /-- The end of the image, the initial stack top (R27). -/
  base : Word
  /-- The lifecycle phase (R29). -/
  phase : Phase
  /-- The parameter MEM_SIZE, "fixed for the lifetime of one CORE instance" (R7, R190). -/
  memSize : Nat
  /-- Which draw of INIT_FILL this instance got (R7, D12; log entry 1). Model's own: an index of a free value. -/
  fill : Nat
  /-- The outcome the last `init` or `next` call returned; none before the first (R101, R160). -/
  report : Option Report
  /-- The trace record the last `init` or `next` call emitted, if any (40_control_unit.md R105, R108). -/
  trace : Option TraceRecord
  deriving DecidableEq, Repr

/-- No step of the CORE stops without a state: every error condition is reported to the driver with a state the spec
gives, and "No step has undefined behaviour" (93_implementation_defined.md U8, 40_control_unit.md R101). So no fault
exists, nothing raises one, and there is nothing to call safe or unsafe (log entry 6). -/
inductive Fault where
  deriving DecidableEq, Repr

/-- Why the model gives an instruction no meaning. -/
inductive Refusal where
  /-- Raised by an arm of `exec` for an instruction that has no meaning yet; every instruction has one, so none raises
  it. Safe: the run stops there. -/
  | notModelled (mnemonic : String)
  deriving DecidableEq, Repr

/-- All nine registers zero (10_state.md R33, "constructed with all registers zero"). -/
def Regs.zero : Regs := ⟨0, 0, 0, 0, 0, 0, 0, 0, 0⟩

/-- A CORE right after construction with a legal capacity (70_reset_and_hazards.md R190). `base` is unspecified and
unobservable until `init`; DESIGN CHOICE 0 (log entry 4). -/
def State.constructed (memSize fill : Nat) : State where
  regs := Regs.zero
  mem := []
  base := 0
  phase := .constructed
  memSize := memSize
  fill := fill
  report := none
  trace := none

/-- The machine right after reset. The CORE's reset "is two host calls: construction (rule R190), and then `init`"
(70_reset_and_hazards.md): construction, then `init` with its default options (R192): an empty image, so
`base = esp = ebp = 0`, and `eip = start = 0` (R194, R195). The capacity and the draw are DESIGN CHOICE
(log entries 1 and 2). -/
def State.reset : State where
  regs := Regs.zero
  mem := []
  base := 0
  phase := .ready
  memSize := Config.resetMemSize
  fill := 0
  report := some .ok
  trace := none

end Sys2Proof.Machine
end

