-- ==== Sys2Proof/Machine/Ops.lean ====
section
/-! DEFINITION. The named operations on registers, memory and the load/store unit, how a condition is raised, and the
push primitive (spec/10_state.md, 20_memory.md, 41_push.md R130, 60_exceptions.md). -/

namespace Sys2Proof.Machine

/-! ### Registers -/

/-- `x[r]` (00_scope.md, Notation). -/
def State.get (s : State) (r : Reg) : Word :=
  match r with
  | .eax => s.regs.eax
  | .ecx => s.regs.ecx
  | .edx => s.regs.edx
  | .ebx => s.regs.ebx
  | .esp => s.regs.esp
  | .ebp => s.regs.ebp
  | .esi => s.regs.esi
  | .edi => s.regs.edi
  | .eip => s.regs.eip

/-- `x[r] <- v`. No register is hard-wired (10_state.md R21). -/
def State.set (s : State) (r : Reg) (v : Word) : State :=
  match r with
  | .eax => { s with regs := { s.regs with eax := v } }
  | .ecx => { s with regs := { s.regs with ecx := v } }
  | .edx => { s with regs := { s.regs with edx := v } }
  | .ebx => { s with regs := { s.regs with ebx := v } }
  | .esp => { s with regs := { s.regs with esp := v } }
  | .ebp => { s with regs := { s.regs with ebp := v } }
  | .esi => { s with regs := { s.regs with esi := v } }
  | .edi => { s with regs := { s.regs with edi := v } }
  | .eip => { s with regs := { s.regs with eip := v } }

/-! ### Memory -/

/-- The canonical form: addresses strictly rising. An unlisted address holds no stored byte, so no entry can equal what
it reads as, the free value (log entry 1). -/
abbrev Memory.wf (m : Memory) : Prop := m.Pairwise (fun c d => c.1 < d.1)

/-- The byte stored at an address; none where nothing has been stored. -/
def Memory.lookup : Memory → Nat → Option Byte
  | [], _ => none
  | c :: m, a => if c.1 = a then some c.2 else Memory.lookup m a

/-- Store one byte, keeping the addresses in rising order. -/
def Memory.insert : Memory → Nat → Byte → Memory
  | [], a, b => [(a, b)]
  | c :: m, a, b =>
    if c.1 < a then c :: Memory.insert m a b
    else if c.1 = a then (a, b) :: m
    else (a, b) :: c :: m

/-- Store a byte sequence, its first byte at the lowest address (00_scope.md, Notation). -/
def Memory.insertBytes : Memory → Nat → List Byte → Memory
  | m, _, [] => m
  | m, a, b :: bs => Memory.insertBytes (Memory.insert m a b) (a + 1) bs

/-- `M[a]`: the byte last stored at `a`, or the instance's INIT_FILL byte if none was (20_memory.md R65, 10_state.md R33). -/
def State.readByte (s : State) (a : Nat) : Byte := (Memory.lookup s.mem a).getD (Config.initFill s.fill a)

/-- `[M[a], M[a+1], ..., M[a+n-1]]`. -/
def State.bytesAt (s : State) : Nat → Nat → List Byte
  | _, 0 => []
  | a, n + 1 => s.readByte a :: State.bytesAt s (a + 1) n

/-- An access of `n` bytes at the integer address `a` is in bounds (20_memory.md R51): never wrapped (R54), no
alignment (R58). -/
def inBounds (memSize : Nat) (a : Int) (n : Nat) : Bool := decide (0 ≤ a ∧ a + n ≤ memSize)

/-- `MemRead(a, n)` (20_memory.md R52). -/
def State.memRead (s : State) (a : Int) (n : Nat) : Except OutOfBounds (List Byte) :=
  if inBounds s.memSize a n then .ok (s.bytesAt a.toNat n) else .error ⟨a, n⟩

/-- `MemWrite(a, n, s)` with `n` the number of bytes: the whole range is checked before any byte is written (R53). -/
def State.memWrite (s : State) (a : Int) (bytes : List Byte) : Except OutOfBounds State :=
  if inBounds s.memSize a bytes.length then .ok { s with mem := Memory.insertBytes s.mem a.toNat bytes }
  else .error ⟨a, bytes.length⟩

/-! ### Conditions and outcomes -/

/-- Raising OutOfBounds inside `next`: the outcome and what it records are reported, and the phase becomes Faulted
(40_control_unit.md R102, R106; 60_exceptions.md R166). There is no trap entry and no saved register (R167), and no
return: nothing leaves Faulted (R168). -/
def State.raise (s : State) (e : OutOfBounds) : State :=
  { s with phase := .faulted, report := some (.outOfBounds e) }

/-- A handler completes: `next` returns Ok (40_control_unit.md R106). -/
def State.complete (s : State) : State := { s with report := some .ok }

/-- The decode finds no entry: `next` returns UnknownOpcode and emits the `unknown` record (R104, R108). The phase
stays Ready (60_exceptions.md R165). -/
def State.reportUnknown (s : State) (b : Byte) : State :=
  { s with report := some (.unknownOpcode b), trace := some (.unknown b) }

/-- A call in the wrong phase: nothing changes, no record is emitted, Refused is returned (R100, 70_reset_and_hazards.md R193). -/
def State.refuse (s : State) : State := { s with report := some .refused, trace := none }

/-- The numeric code of an outcome (60_exceptions.md R160, D10). -/
def Report.code : Report → Nat
  | .ok => 0
  | .unknownOpcode _ => 1
  | .outOfBounds _ => 2
  | .unknownRegister _ => 3
  | .capacityExceeded _ _ => 4
  | .refused => 5

/-! ### The push primitive -/

/-- The address a push of `n` bytes stores to: a mathematical integer, perhaps negative (41_push.md R130). -/
def State.pushAddr (s : State) (n : Nat) : Int := (s.get .esp).toNat - n

/-- `Push(bytes)` (41_push.md R130, R131): the bounds check comes before any change; on success the bytes are stored at
`esp - n`, and that becomes `esp`. -/
def State.push (s : State) (bytes : List Byte) : Host.Outcome State Fault Refusal :=
  match s.memWrite (s.pushAddr bytes.length) bytes with
  | .error e => .next (s.raise e)
  | .ok t => .next ((t.set .esp (BitVec.ofInt 32 (s.pushAddr bytes.length))).complete)

end Sys2Proof.Machine
end

