-- ==== Sys2Proof/Machine/ControlUnit.lean ====
section
/-! DEFINITION. The control unit's step over any dispatcher: phase check, fetch, decode, trace, execute
(spec/40_control_unit.md R100 to R107). -/

namespace Sys2Proof.Machine

/-- `eip` moved past one byte, modulo 2^32 (40_control_unit.md R102, D5). -/
def State.advance (s : State) : State := s.set .eip (s.get .eip + 1)

/-- Fetch: the byte at `eip`, and the state with `eip` past it; out of bounds, nothing is read (40_control_unit.md R102). -/
def State.fetch (s : State) : Except OutOfBounds (Byte × State) :=
  if inBounds s.memSize (s.get .eip).toNat 1 then .ok (s.readByte (s.get .eip).toNat, s.advance)
  else .error ⟨(s.get .eip).toNat, 1⟩

/-- The instruction trace record, emitted before the handler runs (40_control_unit.md R105, R108). -/
def State.emitTrace (s : State) (b : Byte) (e : TableEntry) : State :=
  { s with trace := some (.executed b e.mnemonic e.handler e.operands) }

/-- No record is emitted for a fetch that is out of bounds (40_control_unit.md R102). -/
def State.noTrace (s : State) : State := { s with trace := none }

/-- `next` (40_control_unit.md R107), the handlers given by `dispatch`. -/
def State.next (dispatch : Instr → State → Host.Outcome State Fault Refusal) (s : State) :
    Host.Outcome State Fault Refusal :=
  match s.phase with
  | .ready =>
    match s.fetch with
    | .error e => .next (s.noTrace.raise e)
    | .ok (b, t) =>
      match decode b with
      | .unknown u => .next (t.reportUnknown u)
      | .entry e => dispatch e.instr (t.emitTrace b e)
  | .constructed => .next s.refuse
  | .faulted => .next s.refuse
  | .initFailed => .next s.refuse

/-- `s` with a byte placed where the next fetch reads, in the phase in which `next` runs; a capacity too small to hold
that address is raised to reach it (host interface; log entry 10). -/
def State.placeByte (s : State) (b : Byte) : State :=
  { s with
    phase := .ready
    memSize := max s.memSize ((s.get .eip).toNat + 1)
    mem := Memory.insert s.mem (s.get .eip).toNat b }

end Sys2Proof.Machine
end

