-- ==== Sys2Proof/Machine/Operands.lean ====
section
/-! DEFINITION. The one operand form of the family: the register the opcode implies, as little-endian bytes
(spec/30_encoding.md R86, 20_memory.md R55, 41_push.md). -/

namespace Sys2Proof.Machine

/-- `bytes_le(v, n)`: the n-byte little-endian sequence of `v` (00_scope.md, Notation; 20_memory.md R55). -/
def bytesLE (v : Word) : Nat → List Byte
  | 0 => []
  | n + 1 => v.setWidth 8 :: bytesLE (v >>> 8) n

/-- The width of a 32-bit register operand in bytes (20_memory.md R59). -/
def wordBytes : Nat := 4

/-- The bytes a push of register `r` stores: its value, read before `esp` changes (41_push.md R132 to R139). -/
def State.operandBytes (s : State) (r : Reg) : List Byte := bytesLE (s.get r) wordBytes

/-- The effect all eight instructions share: read the register, then `Push(bytes_le(v, 4))`. -/
def State.pushReg (s : State) (r : Reg) : Host.Outcome State Fault Refusal := s.push (s.operandBytes r)

end Sys2Proof.Machine
end

