-- ==== Sys2Proof/Machine/Push.lean ====
section
/-! DEFINITION. The meanings of the push-register family, one per instruction (spec/41_push.md). When a meaning runs,
`eip` already points past the opcode byte (40_control_unit.md R109). None writes a flag: there are none (10_state.md R30). -/

namespace Sys2Proof.Machine

/-- `push eax` (41_push.md R132). -/
def execPushEax (s : State) : Host.Outcome State Fault Refusal := s.pushReg .eax

/-- `push ecx` (41_push.md R133). -/
def execPushEcx (s : State) : Host.Outcome State Fault Refusal := s.pushReg .ecx

/-- `push edx` (41_push.md R134). -/
def execPushEdx (s : State) : Host.Outcome State Fault Refusal := s.pushReg .edx

/-- `push ebx` (41_push.md R135). -/
def execPushEbx (s : State) : Host.Outcome State Fault Refusal := s.pushReg .ebx

/-- `push esp` (41_push.md R136): the value stored is `esp` before the decrement. -/
def execPushEsp (s : State) : Host.Outcome State Fault Refusal := s.pushReg .esp

/-- `push ebp` (41_push.md R137). -/
def execPushEbp (s : State) : Host.Outcome State Fault Refusal := s.pushReg .ebp

/-- `push esi` (41_push.md R138). -/
def execPushEsi (s : State) : Host.Outcome State Fault Refusal := s.pushReg .esi

/-- `push edi` (41_push.md R139). -/
def execPushEdi (s : State) : Host.Outcome State Fault Refusal := s.pushReg .edi

end Sys2Proof.Machine
end

