-- ==== Sys2Proof/Machine/Dispatch.lean ====
section
/-! DEFINITION. The opcode dispatcher: one arm per instruction (spec/40_control_unit.md R106). -/

namespace Sys2Proof.Machine

def exec (i : Instr) (s : State) : Host.Outcome State Fault Refusal :=
  match i with
  | .pushEax => Sys2Proof.Machine.execPushEax s
  | .pushEcx => Sys2Proof.Machine.execPushEcx s
  | .pushEdx => Sys2Proof.Machine.execPushEdx s
  | .pushEbx => Sys2Proof.Machine.execPushEbx s
  | .pushEsp => Sys2Proof.Machine.execPushEsp s
  | .pushEbp => Sys2Proof.Machine.execPushEbp s
  | .pushEsi => Sys2Proof.Machine.execPushEsi s
  | .pushEdi => Sys2Proof.Machine.execPushEdi s

end Sys2Proof.Machine
end

