-- ==== Sys2Proof/Machine/Step.lean ====
section
/-! DEFINITION. One step: one `next` call of the control unit (spec/40_control_unit.md R107, 70_reset_and_hazards.md R204). -/

namespace Sys2Proof.Machine

/-- One `next` call. -/
def step (s : State) : Host.Outcome State Fault Refusal := s.next exec

/-- `s` with a table row's instruction placed at `eip` (host interface; log entry 10). -/
def State.withFetchWord (s : State) (nbits w : Nat) : State := s.placeByte (tableByte nbits w)

end Sys2Proof.Machine
end

