-- ==== Sys2Proof/Machine/Driver.lean ====
section
/-! DEFINITION. A run: the driver's `next` calls after one successful `init`, and where it ends (spec/40_control_unit.md R112). -/

namespace Sys2Proof.Machine

/-- How a run ends for an observer (40_control_unit.md R112). -/
inductive RunEnd where
  /-- An OutOfBounds outcome: the run ended in a fault. -/
  | fault (e : OutOfBounds)
  /-- An UnknownOpcode outcome under `ON_UNKNOWN = stop`: the run ended normally. -/
  | terminal (b : Byte)
  /-- The driver stopped calling `next`: no claim about the end state is made. -/
  | unfinished
  deriving DecidableEq, Repr

/-- Whether an outcome ends the run under a policy (40_control_unit.md R112, D9). -/
def runEnds (policy : OnUnknown) : Report → Option RunEnd
  | .outOfBounds e => some (.fault e)
  | .unknownOpcode b =>
    match policy with
    | .stop => some (.terminal b)
    | .skip => none
  | .ok => none
  | .unknownRegister _ => none
  | .capacityExceeded _ _ => none
  | .refused => none

/-- The driver's loop: at most `k` calls of `next` (40_control_unit.md R112). It stops early where the run ends. -/
def drive (policy : OnUnknown) : Nat → State → RunEnd × State
  | 0, s => (.unfinished, s)
  | k + 1, s =>
    match step s with
    | .next t =>
      match t.report.bind (runEnds policy) with
      | some e => (e, t)
      | none => drive policy k t
    | .fault _ => (.unfinished, s)
    | .refused _ => (.unfinished, s)

end Sys2Proof.Machine
end

