-- ==== Sys2Proof/Machine/HostPort.lean ====
section
/-! DEFINITION. The driver's calls other than `next`: construction, `init`, the inspection port
(spec/70_reset_and_hazards.md R190 to R198, 60_exceptions.md R163, R175, R178). -/

namespace Sys2Proof.Machine

/-- Construction (R190); outside the legal capacities it is refused and no CORE is created (R191). -/
def construct (memSize : Int) (fill : Nat) : Option State :=
  if memSizeWellFormed memSize then some (State.constructed memSize.toNat fill) else none

/-- The options of `init`; each field's default is the one `init` merges in (R192). An absent `regs` is the empty mapping. -/
structure InitOptions where
  text  : List Byte := []
  data  : List Byte := []
  bss   : List Byte := []
  stack : List Byte := []
  start : Word := 0
  regs  : List (String × Word) := []
  deriving DecidableEq, Repr

/-- `text ++ data ++ bss ++ stack` (R194); `bss` as given (R192). -/
def InitOptions.image (o : InitOptions) : List Byte := o.text ++ o.data ++ o.bss ++ o.stack

/-- `get(name)` of the register file (60_exceptions.md R163). -/
def State.getNamed (s : State) (name : String) : Except Report Word :=
  match Reg.ofName? name with
  | some r => .ok (s.get r)
  | none => .error (.unknownRegister (.name name))

/-- `set(name, value)` of the register file (60_exceptions.md R163). -/
def State.setNamed (s : State) (name : String) (v : Word) : Except Report State :=
  match Reg.ofName? name with
  | some r => .ok (s.set r v)
  | none => .error (.unknownRegister (.name name))

/-- `assign`: a mapping applied on top of the current registers (70_reset_and_hazards.md R195); it fails at the first
unknown name (R196). -/
def State.assign (s : State) : List (String × Word) → Except Report State
  | [] => .ok s
  | p :: ps =>
    match s.setNamed p.1 p.2 with
    | .ok t => State.assign t ps
    | .error r => .error r

/-- `base` for an image of `total` bytes: a 32-bit value (10_state.md R27, R194). An image of 2^32 bytes ends where no
32-bit value points: a free value (log entry 3). -/
def baseOf (total : Nat) : Word := if total < 2 ^ 32 then BitVec.ofNat 32 total else Config.fullImageBase

/-- A failed `init`: nothing changes but the phase (R196, D14). -/
def State.failInit (s : State) (r : Report) : State :=
  { s with phase := .initFailed, report := some r, trace := none }

/-- The memory layout, `Memory.init` (R194), for an image that fits. -/
def State.layout (s : State) (image : List Byte) : State :=
  { s with mem := Memory.insertBytes s.mem 0 image, base := baseOf image.length }

/-- The register setup after the layout, and the end of a successful `init` (R195, R197). -/
def State.enterReady (s : State) (start : Word) : State :=
  { ((s.set .ebp s.base).set .esp s.base).set .eip start with
    phase := .ready, report := some .ok, trace := none }

/-- `init(opts)` (R198): the phase, then the names in `regs`, then the capacity (R193, R196). -/
def State.init (s : State) (o : InitOptions) : State :=
  if s.phase ≠ .constructed then s.refuse
  else
    match s.assign o.regs with
    | .error r => s.failInit r
    | .ok t =>
      if s.memSize < o.image.length then s.failInit (.capacityExceeded o.image.length s.memSize)
      else (t.layout o.image).enterReady o.start

/-- The inspection port's `get(r)` by port index; a read changes no state (60_exceptions.md R175). -/
def State.portGet (s : State) (index : BitVec 4) : Except Report Word :=
  match Reg.ofPortIndex? index with
  | some r => .ok (s.get r)
  | none => .error (.unknownRegister (.index index))

/-- The inspection port's `load(a, n)`; a read changes no state (60_exceptions.md R175). -/
def State.portLoad (s : State) (a : Int) (n : Nat) : Except Report (List Byte) :=
  match s.memRead a n with
  | .ok bytes => .ok bytes
  | .error e => .error (.outOfBounds e)

end Sys2Proof.Machine
end

