-- ==== Sys2Proof/Safety.lean ====
section
/-! DEFINITION. The terms claims are stated in: the invariant, room on the stack, and runs of pushes. -/

namespace Sys2Proof.Machine

/-- A push of `n` bytes has room: its range `[esp - n, esp)` is in bounds (41_push.md R130). -/
abbrev StackRoom (s : State) (n : Nat) : Prop := n ≤ (s.get .esp).toNat ∧ (s.get .esp).toNat ≤ s.memSize

/-- The fetch is in bounds (40_control_unit.md R102). -/
abbrev FetchInBounds (s : State) : Prop := (s.get .eip).toNat + 1 ≤ s.memSize

/-- The byte at `eip`. -/
abbrev opcodeByte (s : State) : Byte := s.readByte (s.get .eip).toNat

/-- The stack relations of 10_state.md R34. -/
structure StackInv (s : State) : Prop where
  ebp_eq_base : s.get .ebp = s.base
  esp_le_base : (s.get .esp).toNat ≤ s.base.toNat
  base_le_memSize : s.base.toNat ≤ s.memSize
  word_steps : 4 ∣ s.base.toNat - (s.get .esp).toNat

/-- The invariant of the machine: the memory is in canonical form inside the capacity, the capacity is a legal one, the
stack relations hold once `init` has succeeded, and until then every register is zero (10_state.md R33, R34;
70_reset_and_hazards.md R191, R196). -/
structure Inv (s : State) : Prop where
  memory : Memory.wf s.mem
  inside : ∀ c ∈ s.mem, c.1 < s.memSize
  capacity : s.memSize ≤ Config.maxMemSize
  stack : s.phase = .ready ∨ s.phase = .faulted → StackInv s
  idle : s.phase = .constructed ∨ s.phase = .initFailed → s.regs = Regs.zero

/-- `PushRun k s t`: steps from `s` to `t`, none raising OutOfBounds, `k` of which completed a push; the others found
an unknown opcode and were skipped (40_control_unit.md R112). -/
inductive PushRun : Nat → State → State → Prop where
  | start (s : State) : PushRun 0 s s
  | pushed {k : Nat} {s t u : State} :
      PushRun k s t → step t = .next u → u.report = some .ok → PushRun (k + 1) s u
  | skipped {k : Nat} {s t u : State} {b : Byte} :
      PushRun k s t → step t = .next u → u.report = some (.unknownOpcode b) → PushRun k s u

/-- Every name of a `regs` mapping is in the closed set of registers (70_reset_and_hazards.md R196). -/
def NamesKnown (regs : List (String × Word)) : Prop := ∀ p ∈ regs, Reg.ofName? p.1 ≠ none

/-- `init` accepts these options on a constructed CORE: known names, and an image that fits (R196). -/
def InitAccepts (s : State) (o : InitOptions) : Prop :=
  s.phase = .constructed ∧ NamesKnown o.regs ∧ o.image.length ≤ s.memSize

end Sys2Proof.Machine
end

