-- ==== Sys2Proof/Certificates/Slice0/Obligations.lean ====
section
/-! DEFINITION. The statements for the provers, from the numbered rules of spec/. -/

open Sys2Proof Sys2Proof.Machine

/-! ### Encoding -/

/-- R83 and R84: the table's eight entries, byte by byte, and no other byte has one. -/
def Obligations.OpcodeTableIsExactlyTheEightRows : Prop :=
  decode 0x50#8 = .entry ⟨0x50#8, .push, "push", [.eax], .pushEax⟩ ∧
  decode 0x51#8 = .entry ⟨0x51#8, .push, "push", [.ecx], .pushEcx⟩ ∧
  decode 0x52#8 = .entry ⟨0x52#8, .push, "push", [.edx], .pushEdx⟩ ∧
  decode 0x53#8 = .entry ⟨0x53#8, .push, "push", [.ebx], .pushEbx⟩ ∧
  decode 0x54#8 = .entry ⟨0x54#8, .push, "push", [.esp], .pushEsp⟩ ∧
  decode 0x55#8 = .entry ⟨0x55#8, .push, "push", [.ebp], .pushEbp⟩ ∧
  decode 0x56#8 = .entry ⟨0x56#8, .push, "push", [.esi], .pushEsi⟩ ∧
  decode 0x57#8 = .entry ⟨0x57#8, .push, "push", [.edi], .pushEdi⟩ ∧
  ∀ b : Byte, b.toNat < 0x50 ∨ 0x57 < b.toNat → decode b = .unknown b

/-- R82 and R88: the register read from bits `[2:0]` of a byte of format PR is the one the byte's table entry names, and
the two decoders agree for every byte. -/
def Obligations.FieldDecoderAgreesWithTable : Prop :=
  ∀ b : Byte,
    (∀ e, decode b = .entry e → ∃ r, decodeByFields b = some r ∧ e.operands = [r]) ∧
    (∀ u, decode b = .unknown u → decodeByFields b = none)

/-- Decoding and encoding byte streams agree both ways: the bytes of any sequence of instructions decode to that sequence,
an unknown byte after them changes none of them, and what any byte stream decodes to encodes back to the bytes it was read
from (R80, R82, R87). -/
def Obligations.DecodeAndEncodeOfStreamsAgree : Prop :=
  (∀ is : List Instr, decodeStream (encodeAll is) = (is, [])) ∧
  (∀ (is : List Instr) (b : Byte) (rest : List Byte), decode b = .unknown b →
    decodeStream (encodeAll is ++ b :: rest) = (is, b :: rest)) ∧
  (∀ bytes : List Byte, encodeAll (decodeStream bytes).1 ++ (decodeStream bytes).2 = bytes)

/-- An instruction's byte stored at `eip` is the instruction the next step runs, for each of the eight (R82, R102, R103). -/
def Obligations.StoredEncodingIsTheInstructionRun : Prop :=
  ∀ (i : Instr) (s : State), s.phase = .ready → FetchInBounds s →
    step { s with mem := Memory.insert s.mem (s.get .eip).toNat (encode i) } =
      exec i { ({ s with mem := Memory.insert s.mem (s.get .eip).toNat (encode i) } : State).set .eip (s.get .eip + 1) with
        trace := some (.executed (encode i) "push" .push [i.operand]) }

/-! ### The step -/

/-- R103 and R109: when the byte at `eip` has a table entry, the step is its instruction's handler, run with `eip` past
the opcode byte and the trace record emitted, on a state otherwise unchanged. -/
def Obligations.StepRunsTheDecodedInstruction : Prop :=
  ∀ (s : State) (e : TableEntry), s.phase = .ready → FetchInBounds s → decode (opcodeByte s) = .entry e →
    step s = exec e.instr { s.set .eip (s.get .eip + 1) with
      trace := some (.executed (opcodeByte s) e.mnemonic e.handler e.operands) }

/-- R100: outside Ready, `next` changes no state, emits no trace record and returns Refused. -/
def Obligations.NextIsRefusedOutsideReady : Prop :=
  ∀ s : State, s.phase = .constructed ∨ s.phase = .initFailed ∨ s.phase = .faulted →
    step s = .next { s with report := some .refused, trace := none }

/-- R102: the fetch. In bounds it reads the byte at `eip` and then increments `eip` modulo 2^32, changing nothing else;
out of bounds `next` returns OutOfBounds(eip, 1), the phase becomes Faulted, and nothing else changes (D7). -/
def Obligations.FetchReadsThenIncrementsEip : Prop :=
  ∀ s : State, s.phase = .ready →
    (FetchInBounds s → ∃ t, s.fetch = .ok (s.readByte (s.get .eip).toNat, t) ∧
      (t.get .eip).toNat = ((s.get .eip).toNat + 1) % 2 ^ 32 ∧ (∀ r, r ≠ .eip → t.get r = s.get r) ∧
      t = { s with regs := t.regs }) ∧
    (¬FetchInBounds s → step s = .next { s with
      phase := .faulted, report := some (.outOfBounds ⟨(s.get .eip).toNat, 1⟩), trace := none })

/-- R104: an unknown opcode changes nothing but `eip`, by 1 modulo 2^32, is reported with its byte, and its trace record
is emitted; the phase stays Ready. -/
def Obligations.UnknownOpcodeOnlyAdvancesEip : Prop :=
  ∀ (s : State) (b : Byte), s.phase = .ready → FetchInBounds s → decode (opcodeByte s) = .unknown b →
    b = opcodeByte s ∧ ∃ t, step s = .next t ∧ t.report = some (.unknownOpcode b) ∧ t.trace = some (.unknown b) ∧
      t.phase = .ready ∧ (t.get .eip).toNat = ((s.get .eip).toNat + 1) % 2 ^ 32 ∧
      (∀ r, r ≠ .eip → t.get r = s.get r) ∧ t.mem = s.mem ∧ t.base = s.base ∧ t.memSize = s.memSize ∧ t.fill = s.fill

/-- R101: each `next` answers a next state with exactly one of its four outcomes, and when; each is the first that applies in the order
refused, fetch out of bounds, unknown opcode, push out of bounds. -/
def Obligations.EveryNextReturnsItsFirstOutcome : Prop :=
  ∀ s : State, ∃ t, step s = .next t ∧ t.report = some (
    if s.phase ≠ .ready then .refused
    else if s.memSize < (s.get .eip).toNat + 1 then .outOfBounds ⟨(s.get .eip).toNat, 1⟩
    else if (opcodeByte s).toNat < 0x50 ∨ 0x57 < (opcodeByte s).toNat then .unknownOpcode (opcodeByte s)
    else if (s.get .esp).toNat < 4 ∨ s.memSize < (s.get .esp).toNat then
      .outOfBounds ⟨(s.get .esp).toNat - 4, 4⟩
    else .ok)

/-- How far `eip` moves in one step, by outcome; the spec's own inference (R110 is marked derived). -/
def Obligations.EipAdvanceByOutcome : Prop :=
  ∀ s t : State, step s = .next t →
    (t.report = some .ok → (t.get .eip).toNat = ((s.get .eip).toNat + 1) % 2 ^ 32) ∧
    (∀ b, t.report = some (.unknownOpcode b) → (t.get .eip).toNat = ((s.get .eip).toNat + 1) % 2 ^ 32) ∧
    (∀ a, t.report = some (.outOfBounds ⟨a, 4⟩) → (t.get .eip).toNat = ((s.get .eip).toNat + 1) % 2 ^ 32) ∧
    (∀ a, t.report = some (.outOfBounds ⟨a, 1⟩) → t.get .eip = s.get .eip) ∧
    (t.report = some .refused → t.get .eip = s.get .eip)

/-- The trace record one step emits, by outcome (R105, R108; D17 for the unknown record and for none): none for a
refused call and for a fetch out of bounds. -/
def Obligations.TraceRecordByOutcome : Prop :=
  ∀ s t : State, step s = .next t →
    (s.phase ≠ .ready ∨ ¬FetchInBounds s → t.trace = none) ∧
    (s.phase = .ready → FetchInBounds s → ∀ b, decode (opcodeByte s) = .unknown b → t.trace = some (.unknown b)) ∧
    (s.phase = .ready → FetchInBounds s → ∀ e, decode (opcodeByte s) = .entry e →
      ∃ r, e.operands = [r] ∧ t.trace = some (.executed (opcodeByte s) "push" .push [r]))

/-! ### The push-register family -/

/-- R132 to R139: the byte and operand of each instruction; with room on the stack, `exec` answers a next state in which the four
little-endian bytes of the register's value before the push stand at `esp - 4`, `esp` is lowered by 4, no other register
changes and the outcome is Ok; without room, OutOfBounds(esp - 4, 4) and no state changes but the phase (R166). `eip` was advanced by the fetch. The state
after the failing push is the spec's decision D6. -/
def Obligations.PushRegisterInstructions : Prop :=
  ∀ p ∈ [(0x50#8, Instr.pushEax, Reg.eax), (0x51#8, Instr.pushEcx, Reg.ecx), (0x52#8, Instr.pushEdx, Reg.edx),
      (0x53#8, Instr.pushEbx, Reg.ebx), (0x54#8, Instr.pushEsp, Reg.esp), (0x55#8, Instr.pushEbp, Reg.ebp),
      (0x56#8, Instr.pushEsi, Reg.esi), (0x57#8, Instr.pushEdi, Reg.edi)],
    decode p.1 = .entry ⟨p.1, .push, "push", [p.2.2], p.2.1⟩ ∧
    (∀ s : State, StackRoom s 4 → ∃ t, exec p.2.1 s = .next t ∧ t.report = some .ok ∧
      t.bytesAt ((s.get .esp).toNat - 4) 4 =
        [(s.get p.2.2).extractLsb' 0 8, (s.get p.2.2).extractLsb' 8 8, (s.get p.2.2).extractLsb' 16 8,
          (s.get p.2.2).extractLsb' 24 8] ∧
      (t.get .esp).toNat = (s.get .esp).toNat - 4 ∧ (∀ r, r ≠ .esp → t.get r = s.get r)) ∧
    (∀ s : State, ¬StackRoom s 4 → exec p.2.1 s = .next { s with
      phase := .faulted, report := some (.outOfBounds ⟨(s.get .esp).toNat - 4, 4⟩) })

/-- The frame of all eight push-register instructions: no register but `esp` changes, no byte outside the four stored,
and nothing else but the reported outcome (R140's register isolation, the spec's own inference). -/
def Obligations.PushRegisterFrame : Prop :=
  ∀ i ∈ [Instr.pushEax, .pushEcx, .pushEdx, .pushEbx, .pushEsp, .pushEbp, .pushEsi, .pushEdi],
    ∀ s : State, StackRoom s 4 → ∃ t, exec i s = .next t ∧
      (∀ r, r ≠ .esp → t.get r = s.get r) ∧
      (∀ a : Nat, s.pushAddr 4 = a → ∀ x, x < a ∨ a + 4 ≤ x → t.readByte x = s.readByte x) ∧
      t.base = s.base ∧ t.phase = s.phase ∧ t.memSize = s.memSize ∧ t.fill = s.fill ∧ t.trace = s.trace

/-- R130 and R131: the push primitive on any sequence of `n ≥ 1` bytes, a single raw byte too: `esp' = esp - n`, the
bytes at the new `esp`, no other byte and no other register changed; out of bounds it raises and changes no register and
no byte (D6). -/
def Obligations.PushPrimitiveStoresItsBytes : Prop :=
  ∀ (s : State) (bytes : List Byte), bytes ≠ [] →
    (StackRoom s bytes.length → ∃ t, s.push bytes = .next t ∧ t.report = some .ok ∧
      (t.get .esp).toNat = (s.get .esp).toNat - bytes.length ∧
      t.memRead (t.get .esp).toNat bytes.length = .ok bytes ∧
      (∀ x, x < (s.get .esp).toNat - bytes.length ∨ (s.get .esp).toNat ≤ x → t.readByte x = s.readByte x) ∧
      (∀ r, r ≠ .esp → t.get r = s.get r) ∧
      t.base = s.base ∧ t.phase = s.phase ∧ t.memSize = s.memSize ∧ t.fill = s.fill) ∧
    (¬StackRoom s bytes.length → s.push bytes = .next { s with
      phase := .faulted
      report := some (.outOfBounds ⟨(s.get .esp).toNat - bytes.length, bytes.length⟩) })

/-- Two pushes in a row of byte sequences leave both stored side by side, the first at the higher address
(R140, the spec's own inference). -/
def Obligations.TwoPushesStoreAdjacentWords : Prop :=
  ∀ (s : State) (i j : Instr), StackRoom s 8 → ∃ t u, exec i s = .next t ∧ exec j t = .next u ∧
    (u.get .esp).toNat = (s.get .esp).toNat - 8 ∧
    u.bytesAt ((s.get .esp).toNat - 4) 4 = bytesLE (s.get i.operand) 4 ∧
    u.bytesAt ((s.get .esp).toNat - 8) 4 = bytesLE (t.get j.operand) 4

/-- One step's part of `esp = base - 4k`: from every Ready state with `esp + 4k = base`, a step that reports Ok gives
`esp + 4(k+1) = base`, one that reports UnknownOpcode keeps `esp + 4k = base`, and both keep Ready and `base`
(R140, the spec's own inference). -/
def Obligations.EachStepCountsItsPushBelowBase : Prop :=
  ∀ (s t : State) (k : Nat), s.phase = .ready → (s.get .esp).toNat + 4 * k = s.base.toNat → step s = .next t →
    (t.report = some .ok →
      (t.get .esp).toNat + 4 * (k + 1) = t.base.toNat ∧ t.base = s.base ∧ t.phase = .ready) ∧
    (∀ b, t.report = some (.unknownOpcode b) →
      (t.get .esp).toNat + 4 * k = t.base.toNat ∧ t.base = s.base ∧ t.phase = .ready)

/-- The k-th successful push after a successful `init` leaves `esp = base - 4k`, whatever unknown opcodes are skipped in
between (R140, the spec's own inference). For an image of 2^32 bytes `base` is the free value of log entry 3, and the
statement holds for each of its values. -/
def Obligations.EspAfterKPushesIsBaseMinusFourK : Prop :=
  ∀ (s t : State) (o : InitOptions) (k : Nat), InitAccepts s o → PushRun k (s.init o) t →
    t.base = (s.init o).base ∧ t.phase = .ready ∧ (t.get .esp).toNat + 4 * k = t.base.toNat

/-! ### Memory -/

/-- R51 and R52: an access of `n` bytes at an integer address is in bounds exactly when `0 ≤ a` and `a + n ≤ MEM_SIZE`; then a read gives the
`n` bytes from `a`, a zero-length one at MEM_SIZE too; otherwise it fails with the range. -/
def Obligations.LoadIsBoundsChecked : Prop :=
  ∀ (s : State) (a : Int) (n : Nat),
    (0 ≤ a ∧ a + n ≤ s.memSize → ∃ bytes, s.memRead a n = .ok bytes ∧ bytes.length = n ∧
      ∀ k < n, bytes[k]? = some (s.readByte (a.toNat + k))) ∧
    (¬(0 ≤ a ∧ a + n ≤ s.memSize) → s.memRead a n = .error ⟨a, n⟩)

/-- R53: a write in bounds changes the bytes it covers, each to its value, and no other byte and nothing else; out of bounds it fails with the range. -/
def Obligations.StoreWritesItsRangeOnly : Prop :=
  ∀ (s : State) (a : Int) (bytes : List Byte),
    (0 ≤ a ∧ a + bytes.length ≤ s.memSize → ∃ t, s.memWrite a bytes = .ok t ∧
      (∀ k < bytes.length, bytes[k]? = some (t.readByte (a.toNat + k))) ∧
      (∀ x, x < a.toNat ∨ a.toNat + bytes.length ≤ x → t.readByte x = s.readByte x) ∧
      t = { s with mem := t.mem }) ∧
    (¬(0 ≤ a ∧ a + bytes.length ≤ s.memSize) → s.memWrite a bytes = .error ⟨a, bytes.length⟩)

/-- R55: a 32-bit value is `[v[7:0], v[15:8], v[23:16], v[31:24]]`, and storing it at `a` puts `v[7:0]` at the lowest address. -/
def Obligations.WordsAreStoredLittleEndian : Prop :=
  ∀ v : Word, bytesLE v 4 = [v.extractLsb' 0 8, v.extractLsb' 8 8, v.extractLsb' 16 8, v.extractLsb' 24 8] ∧
    ∀ (s : State) (a : Nat), a + 4 ≤ s.memSize → ∃ t, s.memWrite a (bytesLE v 4) = .ok t ∧
      t.readByte a = v.extractLsb' 0 8 ∧ t.readByte (a + 1) = v.extractLsb' 8 8 ∧
      t.readByte (a + 2) = v.extractLsb' 16 8 ∧ t.readByte (a + 3) = v.extractLsb' 24 8

/-- After a push of `v`, the byte at `esp + k` is `v[8k+7:8k]`, by a one-byte load (R57, the spec's own inference). -/
def Obligations.MixedWidthLoadSeesLittleEndian : Prop :=
  ∀ (s : State) (i : Instr) (k : Nat), StackRoom s 4 → k < 4 → ∃ t, exec i s = .next t ∧
    t.memRead ((t.get .esp).toNat + k) 1 = .ok [(s.get i.operand).extractLsb' (8 * k) 8]

/-- R58: no access has an alignment requirement: a four-byte store and a one-byte fetch succeed at any address in bounds. -/
def Obligations.NoAccessNeedsAlignment : Prop :=
  (∀ (s : State) (a : Int) (bytes : List Byte), bytes.length = 4 → 0 ≤ a → a + 4 ≤ s.memSize →
    ∃ t, s.memWrite a bytes = .ok t) ∧
  (∀ s : State, FetchInBounds s → ∃ r, s.fetch = .ok r)

/-- Self-modifying code: when a push overwrites the byte the next step fetches, that step decodes the byte just stored,
`v[8k+7:8k]` of the register pushed (R68, the spec's own inference). -/
def Obligations.FetchSeesTheByteJustPushed : Prop :=
  ∀ (s : State) (e : TableEntry) (k : Nat), s.phase = .ready → FetchInBounds s → decode (opcodeByte s) = .entry e →
    StackRoom s 4 → k < 4 → (s.get .eip).toNat + 1 = (s.get .esp).toNat - 4 + k →
    ∃ r t, e.operands = [r] ∧ step s = .next t ∧ opcodeByte t = (s.get r).extractLsb' (8 * k) 8 ∧
      ∀ b, decode ((s.get r).extractLsb' (8 * k) 8) = .unknown b →
        ∃ u, step t = .next u ∧ u.report = some (.unknownOpcode b)

/-! ### The whole machine -/

/-- No step writes a register other than `esp` and `eip`, nor `base`, the capacity or the fill draw, whatever its outcome
(R23, R27, R7). -/
def Obligations.StepWritesOnlyEspAndEip : Prop :=
  ∀ s t : State, step s = .next t →
    (∀ r, r ≠ .esp → r ≠ .eip → t.get r = s.get r) ∧ t.base = s.base ∧ t.memSize = s.memSize ∧ t.fill = s.fill

/-- A byte of memory, or `esp`, changes in a step only if that step completed a push, and only a byte between the new
and the old `esp` (R23, R26). -/
def Obligations.StackChangesOnlyByCompletedPush : Prop :=
  ∀ s t : State, step s = .next t →
    (t.get .esp ≠ s.get .esp → t.report = some .ok ∧ (t.get .esp).toNat + 4 = (s.get .esp).toNat) ∧
    (∀ x, t.readByte x ≠ s.readByte x → t.report = some .ok ∧
      (t.get .esp).toNat ≤ x ∧ x < (s.get .esp).toNat ∧ (t.get .esp).toNat + 4 = (s.get .esp).toNat)

/-- R29: the lifecycle phase. Construction enters Constructed; `init` moves Constructed to Ready or InitFailed and no
other phase; OutOfBounds moves Ready to Faulted; Ok and UnknownOpcode leave Ready; `next` runs only in Ready, and a
refused one keeps the phase; no step leaves Faulted or InitFailed. -/
def Obligations.LifecyclePhaseTransitions : Prop :=
  (∀ (n : Int) (d : Nat) (s : State), construct n d = some s → s.phase = .constructed) ∧
  (∀ (s : State) (o : InitOptions), InitAccepts s o → (s.init o).phase = .ready) ∧
  (∀ (s : State) (o : InitOptions), s.phase = .constructed → ¬InitAccepts s o → (s.init o).phase = .initFailed) ∧
  (∀ s t : State, step s = .next t → ∀ e, t.report = some (.outOfBounds e) → s.phase = .ready ∧ t.phase = .faulted) ∧
  (∀ s t : State, step s = .next t → ∀ b, t.report = some (.unknownOpcode b) → s.phase = .ready ∧ t.phase = .ready) ∧
  (∀ s t : State, step s = .next t → t.report = some .ok → s.phase = .ready ∧ t.phase = .ready) ∧
  (∀ s t : State, step s = .next t → t.report = some .refused → s.phase ≠ .ready ∧ t.phase = s.phase) ∧
  (∀ s t : State, step s = .next t → t.report ≠ some .refused → s.phase = .ready) ∧
  (∀ s t : State, s.phase = .faulted ∨ s.phase = .initFailed → step s = .next t → t.phase = s.phase) ∧
  (∀ (s : State) (o : InitOptions), s.phase ≠ .constructed → (s.init o).phase = s.phase)

/-- R166: after an OutOfBounds outcome the phase is Faulted and every later `next` is Refused and changes nothing; a fetch fault
changed nothing, a push fault only `eip`, by 1 (D6, D8). -/
def Obligations.OutOfBoundsFaultIsSticky : Prop :=
  ∀ (s t : State) (e : OutOfBounds), step s = .next t → t.report = some (.outOfBounds e) →
    t.phase = .faulted ∧
    (∀ policy k, drive policy (k + 1) t = (.unfinished, { t with report := some .refused, trace := none })) ∧
    t.mem = s.mem ∧ t.base = s.base ∧ (∀ r, r ≠ .eip → t.get r = s.get r) ∧
    (¬FetchInBounds s → t.get .eip = s.get .eip) ∧
    (FetchInBounds s → (t.get .eip).toNat = ((s.get .eip).toNat + 1) % 2 ^ 32)

/-- `next` is a function of the state without the memory and of the opcode byte: two states that differ only in memory,
with the same byte at `eip`, give the same outcome and states that differ only in memory, where every address either reads
the same in both (the bytes stored) or reads in each as it did before the step (the sentence R107 quotes). -/
def Obligations.NextDependsOnlyOnTheOpcodeByte : Prop :=
  ∀ (s : State) (m : Memory), opcodeByte { s with mem := m } = opcodeByte s →
    ∃ t t', step s = .next t ∧ step { s with mem := m } = .next t' ∧ t' = { t with mem := t'.mem } ∧
      ∀ x, t'.readByte x = t.readByte x ∨
        (t.readByte x = s.readByte x ∧ t'.readByte x = State.readByte { s with mem := m } x)

/-- Every step keeps the invariant: the canonical memory inside the capacity, a legal capacity, the stack relations of
R34 (marked derived: the spec's own inference), zero registers before `init`. -/
def Obligations.EveryStepKeepsTheInvariant : Prop :=
  ∀ s t : State, Inv s → step s = .next t → Inv t

/-- The invariant holds at reset; the capacity and the draw there are the model's choice (log entries 1 and 2). -/
def Obligations.InvariantHoldsAtReset : Prop := Inv State.reset

/-- Construction establishes the invariant and `init`, whatever it answers, keeps it (R33, R34, R191, R195, R196). For an image of 2^32
bytes `base` is the free value of log entry 3, and the statement holds for each of its values. -/
def Obligations.ConstructionAndInitEstablishTheInvariant : Prop :=
  (∀ (n : Int) (d : Nat) (s : State), construct n d = some s → Inv s) ∧
  (∀ (s : State) (o : InitOptions), Inv s → Inv (s.init o))

/-! ### The host interface -/

/-- R190 and R191: with a capacity of 0 to 2^32 construction gives a CORE of that capacity, all registers zero, phase Constructed, any other is
refused. -/
def Obligations.ConstructionByCapacity : Prop :=
  ∀ (n : Int) (d : Nat),
    (0 ≤ n ∧ n ≤ 4294967296 → ∃ s, construct n d = some s ∧ (s.memSize : Int) = n ∧ s.phase = .constructed ∧
      ∀ r, s.get r = 0) ∧
    (¬(0 ≤ n ∧ n ≤ 4294967296) → construct n d = none)

/-- R194: the layout. An image that fits is written from address 0, text, data, bss, stack in that order; the bytes after it keep their values;
`base` is its length where 32 bits hold it. One that does not fit raises CapacityExceeded and nothing is written. -/
def Obligations.InitLaysOutTheImage : Prop :=
  ∀ (s : State) (o : InitOptions), s.phase = .constructed → NamesKnown o.regs →
    (o.text.length + o.data.length + o.bss.length + o.stack.length ≤ s.memSize →
      (s.init o).bytesAt 0 o.text.length = o.text ∧
      (s.init o).bytesAt o.text.length o.data.length = o.data ∧
      (s.init o).bytesAt (o.text.length + o.data.length) o.bss.length = o.bss ∧
      (s.init o).bytesAt (o.text.length + o.data.length + o.bss.length) o.stack.length = o.stack ∧
      (∀ x, o.text.length + o.data.length + o.bss.length + o.stack.length ≤ x →
        (s.init o).readByte x = s.readByte x) ∧
      (o.text.length + o.data.length + o.bss.length + o.stack.length < 2 ^ 32 →
        (s.init o).base.toNat = o.text.length + o.data.length + o.bss.length + o.stack.length)) ∧
    (s.memSize < o.text.length + o.data.length + o.bss.length + o.stack.length →
      (s.init o).report = some (.capacityExceeded
        (o.text.length + o.data.length + o.bss.length + o.stack.length) s.memSize) ∧ (s.init o).mem = s.mem)

/-- R195: the registers after a successful `init`: the value `regs` gives or the value before (0, the
construction value, where no register was written since construction), but `esp` and `ebp` at `base` and
`eip` at `start` whatever `regs` says; the phase Ready. A mapping names each register once. -/
def Obligations.InitSetsTheRegisters : Prop :=
  ∀ (s : State) (o : InitOptions), InitAccepts s o → (o.regs.map Prod.fst).Nodup →
    (∀ r, r ≠ .esp → r ≠ .ebp → r ≠ .eip →
      (∀ v, (r.name, v) ∈ o.regs → (s.init o).get r = v) ∧
      ((∀ p ∈ o.regs, p.1 ≠ r.name) →
        (s.init o).get r = s.get r ∧ (s.regs = Regs.zero → (s.init o).get r = 0))) ∧
    (s.init o).get .esp = (s.init o).base ∧ (s.init o).get .ebp = (s.init o).base ∧
    (s.init o).get .eip = o.start ∧ (s.init o).phase = .ready ∧ (s.init o).report = some .ok

/-- R193 and R196: outside Constructed `init` is Refused and changes nothing; an unknown name fails it with the first such name, whatever the image; then an
image that does not fit; a failed `init` changes no register and no byte, and `next` is refused after it. -/
def Obligations.InitFailsBeforeAnyChange : Prop :=
  ∀ (s : State) (o : InitOptions),
    (s.phase ≠ .constructed → s.init o = { s with report := some .refused, trace := none }) ∧
    (s.phase = .constructed → ∀ pre p post, o.regs = pre ++ p :: post → NamesKnown pre → Reg.ofName? p.1 = none →
      s.init o = { s with
        phase := .initFailed, report := some (.unknownRegister (.name p.1)), trace := none }) ∧
    (s.phase = .constructed → NamesKnown o.regs → s.memSize < o.image.length →
      s.init o = { s with
        phase := .initFailed, report := some (.capacityExceeded o.image.length s.memSize), trace := none }) ∧
    (s.phase = .constructed → ¬InitAccepts s o →
      step (s.init o) = .next { s.init o with report := some .refused, trace := none })

/-- After a successful `init` whose `start` lies in the image, the first step decodes the image's byte there and runs the
instruction it encodes (R194, R195, R199). -/
def Obligations.FirstStepRunsTheImageByteAtStart : Prop :=
  ∀ (s : State) (o : InitOptions) (b : Byte) (e : TableEntry), InitAccepts s o →
    o.image[o.start.toNat]? = some b → decode b = .entry e →
    step (s.init o) = exec e.instr { (s.init o).set .eip (o.start + 1) with
      trace := some (.executed b e.mnemonic e.handler e.operands) }

/-- R175: the inspection port: `get` by port index 0 to 8 reads the nine registers in that order, 9 to 15 are unknown, a name outside the set is unknown;
`load` is the bounds-checked read. Each answers a value alone: no state is returned, so none changes. -/
def Obligations.InspectionPortReads : Prop :=
  ∀ s : State,
    s.portGet 0 = .ok (s.get .eax) ∧ s.portGet 1 = .ok (s.get .ecx) ∧ s.portGet 2 = .ok (s.get .edx) ∧
    s.portGet 3 = .ok (s.get .ebx) ∧ s.portGet 4 = .ok (s.get .esp) ∧ s.portGet 5 = .ok (s.get .ebp) ∧
    s.portGet 6 = .ok (s.get .esi) ∧ s.portGet 7 = .ok (s.get .edi) ∧ s.portGet 8 = .ok (s.get .eip) ∧
    (∀ n : BitVec 4, 8 < n.toNat → s.portGet n = .error (.unknownRegister (.index n))) ∧
    (∀ r : Reg, s.getNamed r.name = .ok (s.get r)) ∧
    (∀ name : String, (∀ r : Reg, name ≠ r.name) → s.getNamed name = .error (.unknownRegister (.name name))) ∧
    (∀ (a : Int) (n : Nat), s.portLoad a n =
      if 0 ≤ a ∧ a + n ≤ s.memSize then .ok (s.bytesAt a.toNat n) else .error (.outOfBounds ⟨a, n⟩))

/-- The model's reset state is construction followed by `init` with its default options, and it leaves every register
zero, `base` 0, the phase Ready and nothing stored in memory (what construction and `init` leave: R33, R190, R192 to R195).
That the state after reset is this one is the model's choice (log entry 11, DEDUCED), and so are its fill draw (log entry 1)
and its capacity (log entry 2). -/
def Obligations.ResetIsConstructionThenDefaultInit : Prop :=
  (State.constructed Config.resetMemSize 0).init {} = State.reset ∧ (∀ r, State.reset.get r = 0) ∧
    State.reset.base = 0 ∧ State.reset.phase = .ready ∧ (∀ x, State.reset.readByte x = Config.initFill 0 x)

/-- R112: where a run ends: at the first OutOfBounds, at the first UnknownOpcode under stop, or where the driver stops calling; under skip an
UnknownOpcode does not end it. -/
def Obligations.RunEndsWhereTheDriverRuleSays : Prop :=
  ∀ (policy : OnUnknown) (k : Nat) (s t : State), drive policy 0 s = (.unfinished, s) ∧
    (step s = .next t →
      (∀ e, t.report = some (.outOfBounds e) → drive policy (k + 1) s = (.fault e, t)) ∧
      (∀ b, t.report = some (.unknownOpcode b) → drive .stop (k + 1) s = (.terminal b, t) ∧
        drive .skip (k + 1) s = drive .skip k t) ∧
      (t.report = some .ok → drive policy (k + 1) s = drive policy k t))
end

