-- ==== Sys2Proof/Laws/Decode.lean ====
section
/-! SUPPORT. What the decoder and the encoder do, case by case. -/

namespace Sys2Proof

/-- Every row the decoder answers is one of the table's eight, found under its own byte. -/
theorem decode_entry_cases {b : Byte} {e : TableEntry} (h : decode b = .entry e) :
    e ∈ opcodeTable ∧ e.opcode = b := by
  unfold decode at h
  split at h
  · next f hf =>
    cases h
    exact ⟨List.mem_of_find?_eq_some hf, by simpa using List.find?_some hf⟩
  · cases h

/-- The byte of each row is the encoding of its instruction, its operand list the instruction's register. -/
theorem opcodeTable_row : ∀ e ∈ opcodeTable,
    e = ⟨encode e.instr, .push, "push", [e.instr.operand], e.instr⟩ := by
  decide

/-- The encoding of an instruction is its row's byte. -/
theorem decode_of_encode (i : Instr) :
    decode (encode i) = .entry ⟨encode i, .push, "push", [i.operand], i⟩ := by
  cases i <;> decide

/-- A decoded row is determined by its instruction. -/
theorem decode_entry {b : Byte} {e : TableEntry} (h : decode b = .entry e) :
    b = encode e.instr ∧ e = ⟨b, .push, "push", [e.instr.operand], e.instr⟩ := by
  obtain ⟨hm, rfl⟩ := decode_entry_cases h
  have hr := opcodeTable_row e hm
  have hb : e.opcode = encode e.instr := congrArg TableEntry.opcode hr
  exact ⟨hb, by rw [hb]; exact hr⟩

/-- No instruction's register is `eip`. -/
theorem Instr.operand_ne_eip (i : Instr) : i.operand ≠ .eip := by
  cases i <;> decide

/-- A name is known exactly when it is some register's. -/
theorem Reg.ofName?_name (r : Reg) : Reg.ofName? r.name = some r := by
  cases r <;> decide

theorem Reg.ofName?_some {name : String} {r : Reg} (h : Reg.ofName? name = some r) : name = r.name := by
  have hb := List.find?_some (p := fun q : Reg => q.name == name) h
  exact (eq_of_beq hb).symm

theorem decode_unknown_eq {b u : Byte} (h : decode b = .unknown u) : u = b := by
  unfold decode at h
  split at h
  · cases h
  · cases h; rfl

end Sys2Proof
end

