-- ==== Sys2Proof/Laws/Memory.lean ====
section
/-! SUPPORT. The laws of memory as a list: what a store leaves at each address, and that it keeps the canonical form. -/

namespace Sys2Proof.Machine

/-! ### One byte -/

@[simp] theorem Memory.lookup_nil (a : Nat) : Memory.lookup [] a = none := rfl

/-- A store is read back at its address and leaves every other address alone, in any list. -/
theorem Memory.lookup_insert (m : Memory) (a x : Nat) (b : Byte) :
    Memory.lookup (Memory.insert m a b) x = if x = a then some b else Memory.lookup m x := by
  induction m with
  | nil => simp only [Memory.insert, Memory.lookup, eq_comm]
  | cons c m ih =>
    simp only [Memory.insert]
    split
    · simp only [Memory.lookup, ih]
      split
      · next hlt hx => rw [if_neg (by omega)]
      · rfl
    · split
      · next heq =>
        subst heq
        simp only [Memory.lookup]
        by_cases hx : x = c.1
        · simp [hx]
        · rw [if_neg (Ne.symm hx), if_neg hx, if_neg (Ne.symm hx)]
      · simp only [Memory.lookup, eq_comm (a := a)]

/-- Where the addresses of a list lie, an inserted byte's address apart. -/
theorem Memory.insert_keys {P : Nat → Prop} {m : Memory} {a : Nat} {b : Byte}
    (hm : ∀ c ∈ m, P c.1) (ha : P a) : ∀ c ∈ Memory.insert m a b, P c.1 := by
  induction m with
  | nil => simpa [Memory.insert] using ha
  | cons d m ih =>
    have hd := hm d (List.mem_cons_self ..)
    have ht := ih (fun c hc => hm c (List.mem_cons_of_mem _ hc))
    simp only [Memory.insert]
    split
    · intro c hc
      rcases List.mem_cons.1 hc with rfl | hc
      · exact hd
      · exact ht c hc
    · split
      · intro c hc
        rcases List.mem_cons.1 hc with rfl | hc
        · exact ha
        · exact hm c (List.mem_cons_of_mem _ hc)
      · intro c hc
        rcases List.mem_cons.1 hc with rfl | hc
        · exact ha
        · exact hm c hc

/-- Storing a byte keeps the canonical form. -/
theorem Memory.wf_insert {m : Memory} (h : Memory.wf m) (a : Nat) (b : Byte) : Memory.wf (Memory.insert m a b) := by
  induction m with
  | nil => simp [Memory.insert, Memory.wf]
  | cons c m ih =>
    obtain ⟨hc, hm⟩ := List.pairwise_cons.1 h
    simp only [Memory.insert]
    split
    · next hlt => exact List.pairwise_cons.2 ⟨Memory.insert_keys hc hlt, ih hm⟩
    · split
      · next heq => exact List.pairwise_cons.2 ⟨fun d hd => heq ▸ hc d hd, hm⟩
      · refine List.pairwise_cons.2 ⟨fun d hd => ?_, h⟩
        rcases List.mem_cons.1 hd with rfl | hd
        · show a < d.1; omega
        · have := hc d hd; show a < d.1; omega

/-! ### A byte sequence -/

@[simp] theorem Memory.insertBytes_nil (m : Memory) (a : Nat) : Memory.insertBytes m a [] = m := rfl

theorem Memory.lookup_insertBytes_outside {x : Nat} {bs : List Byte} :
    ∀ {m : Memory} {a : Nat}, (x < a ∨ a + bs.length ≤ x) →
      Memory.lookup (Memory.insertBytes m a bs) x = Memory.lookup m x := by
  induction bs with
  | nil => intros; rfl
  | cons b bs ih =>
    intro m a h
    simp only [List.length_cons] at h
    rw [Memory.insertBytes, ih (by omega), Memory.lookup_insert, if_neg (by omega)]

theorem Memory.lookup_insertBytes_inside {k : Nat} {bs : List Byte} :
    ∀ {m : Memory} {a : Nat}, k < bs.length →
      Memory.lookup (Memory.insertBytes m a bs) (a + k) = bs[k]? := by
  induction bs generalizing k with
  | nil => intro m a h; simp at h
  | cons b bs ih =>
    intro m a h
    rw [Memory.insertBytes]
    cases k with
    | zero => simp [Memory.lookup_insertBytes_outside (x := a) (a := a + 1) (Or.inl (by omega)), Memory.lookup_insert]
    | succ k =>
      have := ih (k := k) (m := Memory.insert m a b) (a := a + 1) (by simpa using h)
      simpa [Nat.add_assoc, Nat.add_comm 1 k] using this

theorem Memory.wf_insertBytes {bs : List Byte} :
    ∀ {m : Memory}, Memory.wf m → ∀ a, Memory.wf (Memory.insertBytes m a bs) := by
  induction bs with
  | nil => exact fun h _ => h
  | cons b bs ih => exact fun h a => ih (Memory.wf_insert h a b) (a + 1)

theorem Memory.insertBytes_keys {n : Nat} {bs : List Byte} :
    ∀ {m : Memory} {a : Nat}, (∀ c ∈ m, c.1 < n) → a + bs.length ≤ n →
      ∀ c ∈ Memory.insertBytes m a bs, c.1 < n := by
  induction bs with
  | nil => exact fun h _ => h
  | cons b bs ih =>
    intro m a h hn
    simp only [List.length_cons] at hn
    exact ih (Memory.insert_keys (P := (· < n)) h (by omega)) (by omega)

end Sys2Proof.Machine
end

