-- ==== Sys2Proof/Laws/State.lean ====
section
/-! SUPPORT. One lemma per field per update, so that no later proof unfolds a record update. -/

namespace Sys2Proof.Machine

/-! ### Writing a register -/

@[simp] theorem State.get_set_self (s : State) (r : Reg) (v : Word) : (s.set r v).get r = v := by
  cases r <;> rfl

theorem State.get_set_of_ne (s : State) {r q : Reg} (v : Word) (h : q ≠ r) : (s.set r v).get q = s.get q := by
  cases r <;> cases q <;> first | rfl | exact absurd rfl h

theorem State.get_set (s : State) (r q : Reg) (v : Word) :
    (s.set r v).get q = if q = r then v else s.get q := by
  split
  · next h => rw [h, State.get_set_self]
  · next h => exact State.get_set_of_ne s v h

/-- Two states with the same registers read the same. -/
theorem State.get_congr {s t : State} (h : t.regs = s.regs) (r : Reg) : t.get r = s.get r := by
  cases r <;> simp only [State.get, h]

@[simp] theorem State.set_mem (s : State) (r : Reg) (v : Word) : (s.set r v).mem = s.mem := by
  cases r <;> rfl

@[simp] theorem State.set_base (s : State) (r : Reg) (v : Word) : (s.set r v).base = s.base := by
  cases r <;> rfl

@[simp] theorem State.set_phase (s : State) (r : Reg) (v : Word) : (s.set r v).phase = s.phase := by
  cases r <;> rfl

@[simp] theorem State.set_memSize (s : State) (r : Reg) (v : Word) : (s.set r v).memSize = s.memSize := by
  cases r <;> rfl

@[simp] theorem State.set_fill (s : State) (r : Reg) (v : Word) : (s.set r v).fill = s.fill := by
  cases r <;> rfl

@[simp] theorem State.set_report (s : State) (r : Reg) (v : Word) : (s.set r v).report = s.report := by
  cases r <;> rfl

@[simp] theorem State.set_trace (s : State) (r : Reg) (v : Word) : (s.set r v).trace = s.trace := by
  cases r <;> rfl

/-! ### `State.raise` -/

@[simp] theorem State.raise_regs (s : State) (e : OutOfBounds) : (s.raise e).regs = s.regs := rfl

@[simp] theorem State.raise_mem (s : State) (e : OutOfBounds) : (s.raise e).mem = s.mem := rfl

@[simp] theorem State.raise_base (s : State) (e : OutOfBounds) : (s.raise e).base = s.base := rfl

@[simp] theorem State.raise_phase (s : State) (e : OutOfBounds) : (s.raise e).phase = .faulted := rfl

@[simp] theorem State.raise_memSize (s : State) (e : OutOfBounds) : (s.raise e).memSize = s.memSize := rfl

@[simp] theorem State.raise_fill (s : State) (e : OutOfBounds) : (s.raise e).fill = s.fill := rfl

@[simp] theorem State.raise_report (s : State) (e : OutOfBounds) : (s.raise e).report = some (.outOfBounds e) := rfl

@[simp] theorem State.raise_trace (s : State) (e : OutOfBounds) : (s.raise e).trace = s.trace := rfl

@[simp] theorem State.raise_get (s : State) (e : OutOfBounds) (r : Reg) : (s.raise e).get r = s.get r := by
  cases r <;> rfl

/-! ### `State.complete` -/

@[simp] theorem State.complete_regs (s : State) : (s.complete).regs = s.regs := rfl

@[simp] theorem State.complete_mem (s : State) : (s.complete).mem = s.mem := rfl

@[simp] theorem State.complete_base (s : State) : (s.complete).base = s.base := rfl

@[simp] theorem State.complete_phase (s : State) : (s.complete).phase = s.phase := rfl

@[simp] theorem State.complete_memSize (s : State) : (s.complete).memSize = s.memSize := rfl

@[simp] theorem State.complete_fill (s : State) : (s.complete).fill = s.fill := rfl

@[simp] theorem State.complete_report (s : State) : (s.complete).report = some .ok := rfl

@[simp] theorem State.complete_trace (s : State) : (s.complete).trace = s.trace := rfl

@[simp] theorem State.complete_get (s : State) (r : Reg) : (s.complete).get r = s.get r := by
  cases r <;> rfl

/-! ### `State.reportUnknown` -/

@[simp] theorem State.reportUnknown_regs (s : State) (b : Byte) : (s.reportUnknown b).regs = s.regs := rfl

@[simp] theorem State.reportUnknown_mem (s : State) (b : Byte) : (s.reportUnknown b).mem = s.mem := rfl

@[simp] theorem State.reportUnknown_base (s : State) (b : Byte) : (s.reportUnknown b).base = s.base := rfl

@[simp] theorem State.reportUnknown_phase (s : State) (b : Byte) : (s.reportUnknown b).phase = s.phase := rfl

@[simp] theorem State.reportUnknown_memSize (s : State) (b : Byte) : (s.reportUnknown b).memSize = s.memSize := rfl

@[simp] theorem State.reportUnknown_fill (s : State) (b : Byte) : (s.reportUnknown b).fill = s.fill := rfl

@[simp] theorem State.reportUnknown_report (s : State) (b : Byte) : (s.reportUnknown b).report = some (.unknownOpcode b) := rfl

@[simp] theorem State.reportUnknown_trace (s : State) (b : Byte) : (s.reportUnknown b).trace = some (.unknown b) := rfl

@[simp] theorem State.reportUnknown_get (s : State) (b : Byte) (r : Reg) : (s.reportUnknown b).get r = s.get r := by
  cases r <;> rfl

/-! ### `State.refuse` -/

@[simp] theorem State.refuse_regs (s : State) : (s.refuse).regs = s.regs := rfl

@[simp] theorem State.refuse_mem (s : State) : (s.refuse).mem = s.mem := rfl

@[simp] theorem State.refuse_base (s : State) : (s.refuse).base = s.base := rfl

@[simp] theorem State.refuse_phase (s : State) : (s.refuse).phase = s.phase := rfl

@[simp] theorem State.refuse_memSize (s : State) : (s.refuse).memSize = s.memSize := rfl

@[simp] theorem State.refuse_fill (s : State) : (s.refuse).fill = s.fill := rfl

@[simp] theorem State.refuse_report (s : State) : (s.refuse).report = some .refused := rfl

@[simp] theorem State.refuse_trace (s : State) : (s.refuse).trace = none := rfl

@[simp] theorem State.refuse_get (s : State) (r : Reg) : (s.refuse).get r = s.get r := by
  cases r <;> rfl

/-! ### `State.emitTrace` -/

@[simp] theorem State.emitTrace_regs (s : State) (b : Byte) (e : TableEntry) : (s.emitTrace b e).regs = s.regs := rfl

@[simp] theorem State.emitTrace_mem (s : State) (b : Byte) (e : TableEntry) : (s.emitTrace b e).mem = s.mem := rfl

@[simp] theorem State.emitTrace_base (s : State) (b : Byte) (e : TableEntry) : (s.emitTrace b e).base = s.base := rfl

@[simp] theorem State.emitTrace_phase (s : State) (b : Byte) (e : TableEntry) : (s.emitTrace b e).phase = s.phase := rfl

@[simp] theorem State.emitTrace_memSize (s : State) (b : Byte) (e : TableEntry) : (s.emitTrace b e).memSize = s.memSize := rfl

@[simp] theorem State.emitTrace_fill (s : State) (b : Byte) (e : TableEntry) : (s.emitTrace b e).fill = s.fill := rfl

@[simp] theorem State.emitTrace_report (s : State) (b : Byte) (e : TableEntry) : (s.emitTrace b e).report = s.report := rfl

@[simp] theorem State.emitTrace_trace (s : State) (b : Byte) (e : TableEntry) : (s.emitTrace b e).trace = some (.executed b e.mnemonic e.handler e.operands) := rfl

@[simp] theorem State.emitTrace_get (s : State) (b : Byte) (e : TableEntry) (r : Reg) : (s.emitTrace b e).get r = s.get r := by
  cases r <;> rfl

/-! ### `State.noTrace` -/

@[simp] theorem State.noTrace_regs (s : State) : (s.noTrace).regs = s.regs := rfl

@[simp] theorem State.noTrace_mem (s : State) : (s.noTrace).mem = s.mem := rfl

@[simp] theorem State.noTrace_base (s : State) : (s.noTrace).base = s.base := rfl

@[simp] theorem State.noTrace_phase (s : State) : (s.noTrace).phase = s.phase := rfl

@[simp] theorem State.noTrace_memSize (s : State) : (s.noTrace).memSize = s.memSize := rfl

@[simp] theorem State.noTrace_fill (s : State) : (s.noTrace).fill = s.fill := rfl

@[simp] theorem State.noTrace_report (s : State) : (s.noTrace).report = s.report := rfl

@[simp] theorem State.noTrace_trace (s : State) : (s.noTrace).trace = none := rfl

@[simp] theorem State.noTrace_get (s : State) (r : Reg) : (s.noTrace).get r = s.get r := by
  cases r <;> rfl

/-! ### `State.advance` -/

@[simp] theorem State.advance_mem (s : State) : s.advance.mem = s.mem := by simp [State.advance]

@[simp] theorem State.advance_base (s : State) : s.advance.base = s.base := by simp [State.advance]

@[simp] theorem State.advance_phase (s : State) : s.advance.phase = s.phase := by simp [State.advance]

@[simp] theorem State.advance_memSize (s : State) : s.advance.memSize = s.memSize := by simp [State.advance]

@[simp] theorem State.advance_fill (s : State) : s.advance.fill = s.fill := by simp [State.advance]

@[simp] theorem State.advance_report (s : State) : s.advance.report = s.report := by simp [State.advance]

@[simp] theorem State.advance_trace (s : State) : s.advance.trace = s.trace := by simp [State.advance]

@[simp] theorem State.advance_get_eip (s : State) : s.advance.get .eip = s.get .eip + 1 := by
  simp [State.advance]

theorem State.advance_get_of_ne (s : State) {r : Reg} (h : r ≠ .eip) : s.advance.get r = s.get r := by
  simp only [State.advance, State.get_set_of_ne _ _ h]

@[simp] theorem State.advance_get_esp (s : State) : s.advance.get .esp = s.get .esp := rfl

end Sys2Proof.Machine
end

