-- ==== Sys2Proof/Laws/Ops.lean ====
section
/-! SUPPORT. Per shared operation, what it can do: reads, writes, the push primitive, and the operand bytes. -/

namespace Sys2Proof.Machine

@[simp] theorem inBounds_iff {memSize : Nat} {a : Int} {n : Nat} :
    inBounds memSize a n = true ↔ 0 ≤ a ∧ a + n ≤ memSize := by
  simp [inBounds]

/-! ### Reads -/

@[simp] theorem State.bytesAt_length (s : State) (n : Nat) : ∀ a, (s.bytesAt a n).length = n := by
  induction n with
  | zero => intro; rfl
  | succ n ih => intro a; simp [State.bytesAt, ih]

theorem State.bytesAt_getElem? (s : State) {n : Nat} :
    ∀ {a k : Nat}, k < n → (s.bytesAt a n)[k]? = some (s.readByte (a + k)) := by
  induction n with
  | zero => intro a k h; omega
  | succ n ih =>
    intro a k h
    cases k with
    | zero => simp [State.bytesAt]
    | succ k =>
      have := ih (a := a + 1) (k := k) (by omega)
      simpa [State.bytesAt, Nat.add_assoc, Nat.add_comm 1 k] using this

theorem State.readByte_congr {s t : State} (hm : t.mem = s.mem) (hf : t.fill = s.fill) (a : Nat) :
    t.readByte a = s.readByte a := by
  simp only [State.readByte, hm, hf]

theorem State.memRead_ok {s : State} {a : Int} {n : Nat} (h : 0 ≤ a ∧ a + n ≤ s.memSize) :
    s.memRead a n = .ok (s.bytesAt a.toNat n) := by
  rw [State.memRead, if_pos (inBounds_iff.2 h)]

theorem State.memRead_error {s : State} {a : Int} {n : Nat} (h : ¬(0 ≤ a ∧ a + n ≤ s.memSize)) :
    s.memRead a n = .error ⟨a, n⟩ := by
  rw [State.memRead, if_neg (by simpa using h)]

/-! ### Writes -/

theorem State.memWrite_ok {s : State} {a : Int} {bs : List Byte} (h : 0 ≤ a ∧ a + bs.length ≤ s.memSize) :
    s.memWrite a bs = .ok { s with mem := Memory.insertBytes s.mem a.toNat bs } := by
  rw [State.memWrite, if_pos (inBounds_iff.2 h)]

theorem State.memWrite_error {s : State} {a : Int} {bs : List Byte} (h : ¬(0 ≤ a ∧ a + bs.length ≤ s.memSize)) :
    s.memWrite a bs = .error ⟨a, bs.length⟩ := by
  rw [State.memWrite, if_neg (by simpa using h)]

/-- A state whose memory is another's with bytes stored at `a`, and whose draw is the same, reads as the other does
outside those bytes. -/
theorem State.readByte_store_outside {s t : State} {a x : Nat} {bs : List Byte}
    (hm : t.mem = Memory.insertBytes s.mem a bs) (hf : t.fill = s.fill) (h : x < a ∨ a + bs.length ≤ x) :
    t.readByte x = s.readByte x := by
  simp only [State.readByte, hm, hf, Memory.lookup_insertBytes_outside h]

/-- The stored bytes are read back. -/
theorem State.readByte_store_inside {t : State} {m : Memory} {a k : Nat} {bs : List Byte}
    (hm : t.mem = Memory.insertBytes m a bs) (h : k < bs.length) : t.readByte (a + k) = bs[k] := by
  simp [State.readByte, hm, Memory.lookup_insertBytes_inside h, List.getElem?_eq_getElem h]

theorem State.bytesAt_store {t : State} {m : Memory} {a : Nat} {bs : List Byte}
    (hm : t.mem = Memory.insertBytes m a bs) : t.bytesAt a bs.length = bs := by
  apply List.ext_getElem?
  intro k
  by_cases h : k < bs.length
  · rw [State.bytesAt_getElem? t h, State.readByte_store_inside hm h, List.getElem?_eq_getElem h]
  · rw [List.getElem?_eq_none (by simpa using h), List.getElem?_eq_none (by simpa using h)]

/-- A store keeps the canonical form. -/
theorem State.memWrite_wf {s t : State} {a : Int} {bs : List Byte} (h : s.memWrite a bs = .ok t)
    (hw : Memory.wf s.mem) : Memory.wf t.mem := by
  unfold State.memWrite at h
  split at h
  · cases h
    exact Memory.wf_insertBytes hw _
  · cases h

/-! ### The push primitive -/

/-- The state a push of `bytes` completes in. -/
def State.pushed (s : State) (bytes : List Byte) : State :=
  (({ s with mem := Memory.insertBytes s.mem (s.pushAddr bytes.length).toNat bytes } : State).set .esp
    (BitVec.ofInt 32 (s.pushAddr bytes.length))).complete

/-- A push whose range is in bounds completes. -/
theorem State.push_ok {s : State} {bytes : List Byte}
    (h : bytes.length ≤ (s.get .esp).toNat ∧ (s.get .esp).toNat ≤ s.memSize) :
    s.push bytes = .next (s.pushed bytes) := by
  rw [State.push, State.memWrite_ok (by simp only [State.pushAddr]; omega)]
  rfl

/-- A push whose range is out of bounds raises OutOfBounds. -/
theorem State.push_outOfBounds {s : State} {bytes : List Byte}
    (h : ¬(bytes.length ≤ (s.get .esp).toNat ∧ (s.get .esp).toNat ≤ s.memSize)) :
    s.push bytes = .next (s.raise ⟨s.pushAddr bytes.length, bytes.length⟩) := by
  rw [State.push, State.memWrite_error (by simp only [State.pushAddr]; omega)]

/-- Everything a push can do. -/
theorem State.push_cases (s : State) (bytes : List Byte) :
    ((bytes.length ≤ (s.get .esp).toNat ∧ (s.get .esp).toNat ≤ s.memSize) ∧
      s.push bytes = .next (s.pushed bytes)) ∨
    (¬(bytes.length ≤ (s.get .esp).toNat ∧ (s.get .esp).toNat ≤ s.memSize) ∧
      s.push bytes = .next (s.raise ⟨s.pushAddr bytes.length, bytes.length⟩)) := by
  by_cases h : bytes.length ≤ (s.get .esp).toNat ∧ (s.get .esp).toNat ≤ s.memSize
  · exact .inl ⟨h, State.push_ok h⟩
  · exact .inr ⟨h, State.push_outOfBounds h⟩

@[simp] theorem State.pushed_mem (s : State) (bs : List Byte) :
    (s.pushed bs).mem = Memory.insertBytes s.mem (s.pushAddr bs.length).toNat bs := by simp [State.pushed]

@[simp] theorem State.pushed_base (s : State) (bs : List Byte) : (s.pushed bs).base = s.base := by simp [State.pushed]

@[simp] theorem State.pushed_phase (s : State) (bs : List Byte) : (s.pushed bs).phase = s.phase := by simp [State.pushed]

@[simp] theorem State.pushed_memSize (s : State) (bs : List Byte) : (s.pushed bs).memSize = s.memSize := by
  simp [State.pushed]

@[simp] theorem State.pushed_fill (s : State) (bs : List Byte) : (s.pushed bs).fill = s.fill := by simp [State.pushed]

@[simp] theorem State.pushed_report (s : State) (bs : List Byte) : (s.pushed bs).report = some .ok := by
  simp [State.pushed]

@[simp] theorem State.pushed_trace (s : State) (bs : List Byte) : (s.pushed bs).trace = s.trace := by simp [State.pushed]

theorem State.pushed_get_of_ne (s : State) (bs : List Byte) {r : Reg} (h : r ≠ .esp) :
    (s.pushed bs).get r = s.get r := by
  rw [State.pushed, State.complete_get, State.get_set_of_ne _ _ h]
  cases r <;> rfl

/-- After a push that is in bounds, `esp` is the address stored to. -/
theorem State.pushed_esp_toNat {s : State} {bs : List Byte} (h : bs.length ≤ (s.get .esp).toNat) :
    ((s.pushed bs).get .esp).toNat = (s.get .esp).toNat - bs.length := by
  have hlt : (s.get .esp).toNat < 2 ^ 32 := (s.get .esp).isLt
  rw [State.pushed, State.complete_get, State.get_set_self, State.pushAddr, BitVec.toNat_ofInt]
  omega

/-- The natural number a push in bounds stores to. -/
theorem State.pushAddr_toNat {s : State} {n : Nat} (h : n ≤ (s.get .esp).toNat) :
    (s.pushAddr n).toNat = (s.get .esp).toNat - n := by
  rw [State.pushAddr]
  omega

/-! ### The operand -/

@[simp] theorem bytesLE_length (v : Word) (n : Nat) : (bytesLE v n).length = n := by
  induction n generalizing v with
  | zero => rfl
  | succ n ih => simp [bytesLE, ih]

/-- Byte `k` of the little-endian sequence is the field `v[8k+7:8k]` (20_memory.md R55). -/
theorem bytesLE_getElem? (v : Word) {n k : Nat} (h : k < n) : (bytesLE v n)[k]? = some (v.extractLsb' (8 * k) 8) := by
  induction n generalizing v k with
  | zero => omega
  | succ n ih =>
    cases k with
    | zero =>
      simp only [bytesLE, List.getElem?_cons_zero, Option.some.injEq]
      ext i hi
      simp
    | succ k =>
      simp only [bytesLE, List.getElem?_cons_succ, ih _ (show k < n by omega), Option.some.injEq]
      ext i hi
      simp [show 8 + (8 * k + i) = 8 * (k + 1) + i by omega]

@[simp] theorem State.operandBytes_length (s : State) (r : Reg) : (s.operandBytes r).length = 4 := by
  simp [State.operandBytes, wordBytes]

end Sys2Proof.Machine
end

