-- ==== Sys2Proof/Laws/HostPort.lean ====
section
/-! SUPPORT. What `assign` and `init` can do, and the memory at reset. -/

namespace Sys2Proof.Machine

/-- The memory at reset is in canonical form. -/
theorem State.reset_mem_wf : Memory.wf State.reset.mem := List.Pairwise.nil

/-! ### assign -/

/-- What `assign` leaves alone: everything but the registers. -/
theorem State.assign_frame {regs : List (String × Word)} : ∀ {s t : State}, s.assign regs = .ok t →
    t.mem = s.mem ∧ t.base = s.base ∧ t.phase = s.phase ∧ t.memSize = s.memSize ∧ t.fill = s.fill := by
  induction regs with
  | nil => intro s t h; cases h; exact ⟨rfl, rfl, rfl, rfl, rfl⟩
  | cons p ps ih =>
    intro s t h
    simp only [State.assign, State.setNamed] at h
    cases hn : Reg.ofName? p.1 with
    | none => simp [hn] at h
    | some r => simpa using ih (s := s.set r p.2) (by simpa [hn] using h)

/-- With known names `assign` succeeds. -/
theorem State.assign_known {regs : List (String × Word)} : ∀ {s : State}, NamesKnown regs →
    ∃ t, s.assign regs = .ok t := by
  induction regs with
  | nil => exact fun {s} _ => ⟨s, rfl⟩
  | cons p ps ih =>
    intro s h
    obtain ⟨r, hr⟩ := Option.ne_none_iff_exists'.1 (h p (List.mem_cons_self ..))
    obtain ⟨t, ht⟩ := ih (s := s.set r p.2) (fun q hq => h q (List.mem_cons_of_mem _ hq))
    exact ⟨t, by simp [State.assign, State.setNamed, hr, ht]⟩

/-- `assign` fails at the first unknown name. -/
theorem State.assign_unknown {pre post : List (String × Word)} {p : String × Word} :
    ∀ {s : State}, NamesKnown pre → Reg.ofName? p.1 = none →
      s.assign (pre ++ p :: post) = .error (.unknownRegister (.name p.1)) := by
  induction pre with
  | nil => intro s _ h; simp [State.assign, State.setNamed, h]
  | cons q qs ih =>
    intro s hk h
    obtain ⟨r, hr⟩ := Option.ne_none_iff_exists'.1 (hk q (List.mem_cons_self ..))
    have := ih (s := s.set r q.2) (fun x hx => hk x (List.mem_cons_of_mem _ hx)) h
    simpa [State.assign, State.setNamed, hr] using this

/-- A register no pair names keeps its value. -/
theorem State.assign_get_other {regs : List (String × Word)} {r : Reg} : ∀ {s t : State},
    s.assign regs = .ok t → (∀ p ∈ regs, p.1 ≠ r.name) → t.get r = s.get r := by
  induction regs with
  | nil => intro s t h _; cases h; rfl
  | cons p ps ih =>
    intro s t h hn
    simp only [State.assign, State.setNamed] at h
    cases hp : Reg.ofName? p.1 with
    | none => simp [hp] at h
    | some q =>
      have hq : r ≠ q := by
        rintro rfl
        exact hn p (List.mem_cons_self ..) (Reg.ofName?_some hp)
      rw [ih (by simpa [hp] using h) (fun x hx => hn x (List.mem_cons_of_mem _ hx)), State.get_set_of_ne _ _ hq]

/-- A register one pair of a mapping names gets that pair's value. -/
theorem State.assign_get_named {regs : List (String × Word)} {r : Reg} {v : Word} : ∀ {s t : State},
    s.assign regs = .ok t → (regs.map Prod.fst).Nodup → (r.name, v) ∈ regs → t.get r = v := by
  induction regs with
  | nil => intro s t _ _ h; simp at h
  | cons p ps ih =>
    intro s t h hd hm
    obtain ⟨hp, hps⟩ := List.nodup_cons.1 hd
    simp only [State.assign, State.setNamed] at h
    cases hq : Reg.ofName? p.1 with
    | none => simp [hq] at h
    | some q =>
      have ht : (s.set q p.2).assign ps = .ok t := by simpa [hq] using h
      rcases List.mem_cons.1 hm with rfl | hm
      · have : q = r := by simpa [Reg.ofName?_name] using hq.symm
        subst this
        rw [State.assign_get_other ht, State.get_set_self]
        intro x hx hxn
        exact hp (List.mem_map.2 ⟨x, hx, hxn⟩)
      · exact ih ht hps hm

/-! ### init -/

/-- A refused `init`. -/
theorem State.init_refused {s : State} {o : InitOptions} (h : s.phase ≠ .constructed) : s.init o = s.refuse := by
  simp only [State.init, if_pos h]

/-- An `init` that names an unknown register fails at the first such name. -/
theorem State.init_unknownRegister {s : State} {o : InitOptions} {pre post : List (String × Word)}
    {p : String × Word} (hc : s.phase = .constructed) (ho : o.regs = pre ++ p :: post) (hk : NamesKnown pre)
    (hp : Reg.ofName? p.1 = none) : s.init o = s.failInit (.unknownRegister (.name p.1)) := by
  rw [State.init, if_neg (by simp [hc]), ho, State.assign_unknown hk hp]

/-- An `init` whose image does not fit fails. -/
theorem State.init_capacityExceeded {s : State} {o : InitOptions} (hc : s.phase = .constructed)
    (hk : NamesKnown o.regs) (h : s.memSize < o.image.length) :
    s.init o = s.failInit (.capacityExceeded o.image.length s.memSize) := by
  obtain ⟨t, ht⟩ := State.assign_known (s := s) hk
  simp only [State.init, hc, ne_eq, not_true_eq_false, if_false, ht, if_pos h]

/-- An `init` that is accepted assigns, lays out the image and enters Ready. -/
theorem State.init_accepted {s : State} {o : InitOptions} (h : InitAccepts s o) :
    ∃ t, s.assign o.regs = .ok t ∧ s.init o = (t.layout o.image).enterReady o.start := by
  obtain ⟨t, ht⟩ := State.assign_known (s := s) h.2.1
  refine ⟨t, ht, ?_⟩
  simp only [State.init, h.1, ne_eq, not_true_eq_false, if_false, ht, if_neg (Nat.not_lt.2 h.2.2)]

/-- Everything `init` can do. -/
theorem State.init_cases (s : State) (o : InitOptions) :
    (s.phase ≠ .constructed ∧ s.init o = s.refuse) ∨
    (∃ r, s.phase = .constructed ∧ s.init o = s.failInit r) ∨
    (∃ t, s.phase = .constructed ∧ o.image.length ≤ s.memSize ∧ s.assign o.regs = .ok t ∧
      s.init o = (t.layout o.image).enterReady o.start) := by
  by_cases hc : s.phase = .constructed
  · cases ha : s.assign o.regs with
    | error r => exact .inr (.inl ⟨r, hc, by simp only [State.init, hc, ne_eq, not_true_eq_false, if_false, ha]⟩)
    | ok t =>
      by_cases hl : s.memSize < o.image.length
      · exact .inr (.inl ⟨.capacityExceeded o.image.length s.memSize, hc, by
          simp only [State.init, hc, ne_eq, not_true_eq_false, if_false, ha, if_pos hl]⟩)
      · exact .inr (.inr ⟨t, hc, Nat.not_lt.1 hl, rfl, by
          simp only [State.init, hc, ne_eq, not_true_eq_false, if_false, ha, if_neg hl]⟩)
  · exact .inl ⟨hc, State.init_refused hc⟩

/-- The layout leaves the registers alone. -/
@[simp] theorem State.layout_get (s : State) (image : List Byte) (r : Reg) : (s.layout image).get r = s.get r := by
  cases r <;> rfl

@[simp] theorem State.enterReady_mem (s : State) (v : Word) : (s.enterReady v).mem = s.mem := by simp [State.enterReady]

@[simp] theorem State.enterReady_base (s : State) (v : Word) : (s.enterReady v).base = s.base := by
  simp [State.enterReady]

@[simp] theorem State.enterReady_phase (s : State) (v : Word) : (s.enterReady v).phase = .ready := rfl

@[simp] theorem State.enterReady_memSize (s : State) (v : Word) : (s.enterReady v).memSize = s.memSize := by
  simp [State.enterReady]

@[simp] theorem State.enterReady_fill (s : State) (v : Word) : (s.enterReady v).fill = s.fill := by
  simp [State.enterReady]

@[simp] theorem State.enterReady_report (s : State) (v : Word) : (s.enterReady v).report = some .ok := rfl

@[simp] theorem State.enterReady_trace (s : State) (v : Word) : (s.enterReady v).trace = none := rfl

/-- The registers when `init` has succeeded: `ebp` and `esp` at `base`, `eip` at `start`, the others as they were. -/
theorem State.enterReady_get (s : State) (v : Word) (r : Reg) :
    (s.enterReady v).get r = if r = .eip then v else if r = .esp ∨ r = .ebp then s.base else s.get r := by
  cases r <;> rfl

end Sys2Proof.Machine
end

