-- ==== Sys2Proof/Laws/PerInstr.lean ====
section
/-! SUPPORT. The per-instruction family `Encoding`: what each instruction's byte looks like and that it decodes back. -/

namespace Sys2Proof.Laws.Encoding

/-- The byte has the fixed bits of format PR, its `reg` field is the encoding number of the instruction's register, and
decoding the byte gives the instruction (30_encoding.md R82, R83). -/
def Statement (i : Instr) : Prop :=
  (encode i).extractLsb' 3 5 = 0b01010#5 ∧
    i.operand.number? = some ((encode i).extractLsb' 0 3) ∧
    decodeInstr? (encode i) = some i

theorem pushEax : Statement .pushEax := ⟨by decide, by decide, by decide⟩
theorem pushEcx : Statement .pushEcx := ⟨by decide, by decide, by decide⟩
theorem pushEdx : Statement .pushEdx := ⟨by decide, by decide, by decide⟩
theorem pushEbx : Statement .pushEbx := ⟨by decide, by decide, by decide⟩
theorem pushEsp : Statement .pushEsp := ⟨by decide, by decide, by decide⟩
theorem pushEbp : Statement .pushEbp := ⟨by decide, by decide, by decide⟩
theorem pushEsi : Statement .pushEsi := ⟨by decide, by decide, by decide⟩
theorem pushEdi : Statement .pushEdi := ⟨by decide, by decide, by decide⟩

end Sys2Proof.Laws.Encoding
end

