-- ==== Sys2Proof/Laws/Step.lean ====
section
/-! SUPPORT. Everything an instruction and a step can do, said once. -/

namespace Sys2Proof.Machine

/-- Every instruction is the push of its register. -/
theorem exec_eq_pushReg (i : Instr) (s : State) : exec i s = s.pushReg i.operand := by
  cases i <;> rfl

/-- Everything an instruction can do: complete its push, or raise OutOfBounds. -/
theorem exec_cases (i : Instr) (s : State) :
    ((4 ≤ (s.get .esp).toNat ∧ (s.get .esp).toNat ≤ s.memSize) ∧
      exec i s = .next (s.pushed (s.operandBytes i.operand))) ∨
    (¬(4 ≤ (s.get .esp).toNat ∧ (s.get .esp).toNat ≤ s.memSize) ∧
      exec i s = .next (s.raise ⟨s.pushAddr 4, 4⟩)) := by
  simpa [exec_eq_pushReg, State.pushReg] using State.push_cases s (s.operandBytes i.operand)

theorem exec_ok {i : Instr} {s : State} (h : 4 ≤ (s.get .esp).toNat ∧ (s.get .esp).toNat ≤ s.memSize) :
    exec i s = .next (s.pushed (s.operandBytes i.operand)) := by
  rcases exec_cases i s with ⟨_, e⟩ | ⟨n, _⟩
  · exact e
  · exact absurd h n

theorem exec_outOfBounds {i : Instr} {s : State} (h : ¬(4 ≤ (s.get .esp).toNat ∧ (s.get .esp).toNat ≤ s.memSize)) :
    exec i s = .next (s.raise ⟨s.pushAddr 4, 4⟩) := by
  rcases exec_cases i s with ⟨y, _⟩ | ⟨_, e⟩
  · exact absurd y h
  · exact e

/-- The fetch in bounds. -/
theorem State.fetch_ok {s : State} (h : (s.get .eip).toNat + 1 ≤ s.memSize) :
    s.fetch = .ok (s.readByte (s.get .eip).toNat, s.advance) := by
  rw [State.fetch, if_pos (inBounds_iff.2 (by omega))]

/-- The fetch out of bounds. -/
theorem State.fetch_outOfBounds {s : State} (h : ¬((s.get .eip).toNat + 1 ≤ s.memSize)) :
    s.fetch = .error ⟨(s.get .eip).toNat, 1⟩ := by
  rw [State.fetch, if_neg (by rw [inBounds_iff]; omega)]

/-- Outside Ready a step is refused. -/
theorem step_of_not_ready {s : State} (h : s.phase ≠ .ready) : step s = .next s.refuse := by
  unfold step State.next
  cases hp : s.phase <;> first | rfl | exact absurd hp h

/-- Ready, and the fetch is out of bounds. -/
theorem step_fetch_outOfBounds {s : State} (hr : s.phase = .ready) (h : ¬((s.get .eip).toNat + 1 ≤ s.memSize)) :
    step s = .next (s.noTrace.raise ⟨(s.get .eip).toNat, 1⟩) := by
  simp only [step, State.next, hr, State.fetch_outOfBounds h]

/-- Ready, and the byte at `eip` has no entry. -/
theorem step_unknown {s : State} {u : Byte} (hr : s.phase = .ready) (h : (s.get .eip).toNat + 1 ≤ s.memSize)
    (hd : decode (s.readByte (s.get .eip).toNat) = .unknown u) : step s = .next (s.advance.reportUnknown u) := by
  simp only [step, State.next, hr, State.fetch_ok h, hd]

/-- Ready, and the byte at `eip` has an entry: its instruction runs past its byte, the trace record emitted. -/
theorem step_entry {s : State} {e : TableEntry} (hr : s.phase = .ready) (h : (s.get .eip).toNat + 1 ≤ s.memSize)
    (hd : decode (s.readByte (s.get .eip).toNat) = .entry e) :
    step s = exec e.instr (s.advance.emitTrace (s.readByte (s.get .eip).toNat) e) := by
  simp only [step, State.next, hr, State.fetch_ok h, hd]

/-- The state a handler starts in (40_control_unit.md R109). -/
abbrev State.atHandler (s : State) (e : TableEntry) : State :=
  s.advance.emitTrace (s.readByte (s.get .eip).toNat) e

/-- Everything a step can do, in the order it checks: refused; fetch out of bounds; unknown opcode; a push that
completes; a push out of bounds. -/
theorem step_cases (s : State) :
    (s.phase ≠ .ready ∧ step s = .next s.refuse) ∨
    (s.phase = .ready ∧ ¬((s.get .eip).toNat + 1 ≤ s.memSize) ∧
      step s = .next (s.noTrace.raise ⟨(s.get .eip).toNat, 1⟩)) ∨
    (s.phase = .ready ∧ (s.get .eip).toNat + 1 ≤ s.memSize ∧
      decode (s.readByte (s.get .eip).toNat) = .unknown (s.readByte (s.get .eip).toNat) ∧
      step s = .next (s.advance.reportUnknown (s.readByte (s.get .eip).toNat))) ∨
    (∃ e, s.phase = .ready ∧ (s.get .eip).toNat + 1 ≤ s.memSize ∧
      decode (s.readByte (s.get .eip).toNat) = .entry e ∧
      (4 ≤ (s.get .esp).toNat ∧ (s.get .esp).toNat ≤ s.memSize) ∧
      step s = .next ((s.atHandler e).pushed ((s.atHandler e).operandBytes e.instr.operand))) ∨
    (∃ e, s.phase = .ready ∧ (s.get .eip).toNat + 1 ≤ s.memSize ∧
      decode (s.readByte (s.get .eip).toNat) = .entry e ∧
      ¬(4 ≤ (s.get .esp).toNat ∧ (s.get .esp).toNat ≤ s.memSize) ∧
      step s = .next ((s.atHandler e).raise ⟨s.pushAddr 4, 4⟩)) := by
  by_cases hr : s.phase = .ready
  · by_cases hf : (s.get .eip).toNat + 1 ≤ s.memSize
    · cases hd : decode (s.readByte (s.get .eip).toNat) with
      | unknown u =>
        cases decode_unknown_eq hd
        exact .inr (.inr (.inl ⟨hr, hf, rfl, step_unknown hr hf hd⟩))
      | entry e =>
        have hs := step_entry hr hf hd
        by_cases hp : 4 ≤ (s.get .esp).toNat ∧ (s.get .esp).toNat ≤ s.memSize
        · exact .inr (.inr (.inr (.inl ⟨e, hr, hf, rfl, hp, by rw [hs, exec_ok (by simpa using hp)]⟩)))
        · refine .inr (.inr (.inr (.inr ⟨e, hr, hf, rfl, hp, ?_⟩)))
          rw [hs, exec_outOfBounds (by simpa using hp)]
          simp [State.pushAddr]
    · exact .inr (.inl ⟨hr, hf, step_fetch_outOfBounds hr hf⟩)
  · exact .inl ⟨hr, step_of_not_ready hr⟩

/-- A placed byte is what the next step fetches and decodes (host interface). -/
theorem step_placeByte_entry (s : State) {b : Byte} {e : TableEntry} (hd : decode b = .entry e) :
    step (s.placeByte b) = exec e.instr ((s.placeByte b).advance.emitTrace b e) := by
  have hb : (s.placeByte b).readByte ((s.placeByte b).get .eip).toNat = b := by
    show (Memory.lookup (Memory.insert s.mem (s.get .eip).toNat b) (s.get .eip).toNat).getD _ = b
    simp [Memory.lookup_insert]
  have h := step_entry (s := s.placeByte b) rfl (Nat.le_max_right ..) (hb.symm ▸ hd)
  rwa [hb] at h

end Sys2Proof.Machine
end

