-- ==== Sys2Proof/Machine/Flags.lean ====
section
/-! DEFINITION. Flags: there are none. The register file has "No arithmetic or flag semantics" and no instruction reads or writes a flag
(spec/10_state.md R30), so State has no flag and no instruction computes one. -/
end

