-- ==== Sys2Proof/Tests/Slice0.lean ====
section
/-! SUPPORT. Small tests whose expected results are the vectors of spec/95_test_vectors.md, the ill-formed terms the checks refuse,
and a witness for the hypotheses of each statement. -/

namespace Sys2Proof.Tests

open Sys2Proof.Machine

/-! ### Ill-formed terms are refused (WellFormed) -/

theorem test_row_wrong_format : TableEntry.wellFormed ⟨0x90, .push, "push", [.eax], .pushEax⟩ = false := by decide
theorem test_row_no_operand : TableEntry.wellFormed ⟨0x50, .push, "push", [], .pushEax⟩ = false := by decide
theorem test_row_eip_operand : TableEntry.wellFormed ⟨0x50, .push, "push", [.eip], .pushEax⟩ = false := by decide
theorem test_row_wrong_mnemonic : TableEntry.wellFormed ⟨0x50, .push, "pop", [.eax], .pushEax⟩ = false := by decide
theorem test_table_double_opcode :
    opcodesDistinct [⟨0x50, .push, "push", [.eax], .pushEax⟩, ⟨0x50, .push, "push", [.ecx], .pushEcx⟩] = false := by decide
theorem test_capacity_negative : memSizeWellFormed (-1) = false := by decide
theorem test_capacity_too_large : memSizeWellFormed 4294967297 = false := by decide
theorem test_table_well_formed :
    (opcodeTable.all TableEntry.wellFormed && opcodesDistinct opcodeTable) = true := by decide

/-! ### Decoding: words written out from format PR, `01010` then the register number (V-DEC) -/

theorem test_decode_push_eax : decodeInstr? 0b01010000#8 = some .pushEax := by decide
theorem test_decode_push_ecx : decodeInstr? 0b01010001#8 = some .pushEcx := by decide
theorem test_decode_push_edx : decodeInstr? 0b01010010#8 = some .pushEdx := by decide
theorem test_decode_push_ebx : decodeInstr? 0b01010011#8 = some .pushEbx := by decide
theorem test_decode_push_esp : decodeInstr? 0b01010100#8 = some .pushEsp := by decide
theorem test_decode_push_ebp : decodeInstr? 0b01010101#8 = some .pushEbp := by decide
theorem test_decode_push_esi : decodeInstr? 0b01010110#8 = some .pushEsi := by decide
theorem test_decode_push_edi : decodeInstr? 0b01010111#8 = some .pushEdi := by decide

/-- V-DEC: one below and one above the family, x86 escape and prefix bytes, and others are unknown. -/
theorem test_decode_unknown_bytes :
    ([0x00, 0x0F, 0x4F, 0x58, 0x66, 0x90, 0xC3, 0xF4, 0xFF] : List Byte).map decodeInstr? = List.replicate 9 none := by
  decide

theorem test_decodeBytes_rejects_by_name :
    decodeBytes [] = .error .noByte ∧ decodeBytes [0x66, 0x50] = .error (.unknownOpcode 0x66) := ⟨rfl, rfl⟩

theorem test_decodeTableWord : decodeTableWord 8 0x57 = some .pushEdi ∧ decodeTableWord 8 0x58 = none := by decide

/-- R89's two examples, and R108's example of a hexadecimal byte. -/
theorem test_texts :
    opcodeTable.map TableEntry.asmText = ["push eax", "push ecx", "push edx", "push ebx", "push esp", "push ebp",
      "push esi", "push edi"] ∧ hexByte 0x50 = "0x50" := by decide

/-! ### V-PUSH: `MEM_SIZE = 16`, the opcode at 0 -/

/-- A Ready CORE of 16 bytes with one opcode at 0, `esp` and one more register as given. -/
def small (op : Byte) (esp : Word) (r : Reg) (v : Word) : State :=
  (({ State.reset with memSize := 16, mem := [(0, op)] } : State).set r v).set .esp esp

/-- What a test looks at after one step: outcome, phase, `esp`, `eip`, and the bytes stored. -/
structure Seen where
  report : Option Report
  phase : Phase
  esp : Nat
  eip : Nat
  mem : Memory
  deriving DecidableEq

def look (s : State) : Option Seen :=
  match step s with
  | .next t => some ⟨t.report, t.phase, (t.get .esp).toNat, (t.get .eip).toNat, t.mem⟩
  | .fault _ => none
  | .refused _ => none

theorem test_push_eax : look (small 0x50 8 .eax 0x11223344) =
    some ⟨some .ok, .ready, 4, 1, [(0, 0x50), (4, 0x44), (5, 0x33), (6, 0x22), (7, 0x11)]⟩ := by decide
theorem test_push_ecx : look (small 0x51 8 .ecx 1) =
    some ⟨some .ok, .ready, 4, 1, [(0, 0x51), (4, 1), (5, 0), (6, 0), (7, 0)]⟩ := by decide
theorem test_push_edx : look (small 0x52 8 .edx 0xDEADBEEF) =
    some ⟨some .ok, .ready, 4, 1, [(0, 0x52), (4, 0xEF), (5, 0xBE), (6, 0xAD), (7, 0xDE)]⟩ := by decide
theorem test_push_ebx : look (small 0x53 8 .ebx 0x80000000) =
    some ⟨some .ok, .ready, 4, 1, [(0, 0x53), (4, 0), (5, 0), (6, 0), (7, 0x80)]⟩ := by decide
theorem test_push_esp_unaligned : look (small 0x54 7 .eax 0) =
    some ⟨some .ok, .ready, 3, 1, [(0, 0x54), (3, 7), (4, 0), (5, 0), (6, 0)]⟩ := by decide
theorem test_push_ebp : look (small 0x55 8 .ebp 8) =
    some ⟨some .ok, .ready, 4, 1, [(0, 0x55), (4, 8), (5, 0), (6, 0), (7, 0)]⟩ := by decide
theorem test_push_esi : look (small 0x56 8 .esi 0xFFFFFFFF) =
    some ⟨some .ok, .ready, 4, 1, [(0, 0x56), (4, 0xFF), (5, 0xFF), (6, 0xFF), (7, 0xFF)]⟩ := by decide
theorem test_push_edi : look (small 0x57 8 .edi 0xFF) =
    some ⟨some .ok, .ready, 4, 1, [(0, 0x57), (4, 0xFF), (5, 0), (6, 0), (7, 0)]⟩ := by decide
theorem test_push_eax_at_esp_four_overwrites_its_opcode : look (small 0x50 4 .eax 0) =
    some ⟨some .ok, .ready, 0, 1, [(0, 0), (1, 0), (2, 0), (3, 0)]⟩ := by decide
theorem test_push_ecx_at_top : look (small 0x51 16 .ecx 0xA1B2C3D4) =
    some ⟨some .ok, .ready, 12, 1, [(0, 0x51), (12, 0xD4), (13, 0xC3), (14, 0xB2), (15, 0xA1)]⟩ := by decide
theorem test_push_edx_out_of_bounds : look (small 0x52 3 .edx 5) =
    some ⟨some (.outOfBounds ⟨-1, 4⟩), .faulted, 3, 1, [(0, 0x52)]⟩ := by decide
theorem test_push_ebx_out_of_bounds_at_zero : look (small 0x53 0 .ebx 5) =
    some ⟨some (.outOfBounds ⟨-4, 4⟩), .faulted, 0, 1, [(0, 0x53)]⟩ := by decide
theorem test_push_esp_above_memory : look (small 0x54 17 .eax 0) =
    some ⟨some (.outOfBounds ⟨13, 4⟩), .faulted, 17, 1, [(0, 0x54)]⟩ := by decide

/-- R131: a single raw byte lowers `esp` by 1 and is stored there. -/
theorem test_push_one_raw_byte : ∃ t, (small 0x50 1 .eax 0).push [0xAB] = .next t ∧
    t.get .esp = 0 ∧ t.mem = [(0, 0xAB)] := ⟨_, rfl, by decide, by decide⟩

/-! ### V-FETCH and V-MEM -/

theorem test_unknown_opcode_advances_eip :
    look ({ small 0x50 8 .eip 15 with mem := [(15, 0xFF)] }) =
      some ⟨some (.unknownOpcode 0xFF), .ready, 8, 16, [(15, 0xFF)]⟩ := by decide
theorem test_fetch_out_of_bounds : look (small 0x50 8 .eip 16) =
    some ⟨some (.outOfBounds ⟨16, 1⟩), .faulted, 8, 16, [(0, 0x50)]⟩ := by decide
theorem test_faulted_is_refused : look ({ small 0x50 8 .eax 0 with phase := .faulted }) =
    some ⟨some .refused, .faulted, 8, 0, [(0, 0x50)]⟩ := by decide
theorem test_eip_wraps :
    look ({ small 0x50 8 .eip 0xFFFFFFFF with memSize := 4294967296, mem := [(4294967295, 0x90)] }) =
      some ⟨some (.unknownOpcode 0x90), .ready, 8, 0, [(4294967295, 0x90)]⟩ := by decide
theorem test_load_empty_at_capacity : (small 0x50 8 .eax 0).memRead 16 0 = .ok [] := rfl
theorem test_load_empty_past_capacity : (small 0x50 8 .eax 0).memRead 17 0 = .error ⟨17, 0⟩ := rfl
theorem test_load_negative : (small 0x50 8 .eax 0).memRead (-1) 1 = .error ⟨-1, 1⟩ := rfl
theorem test_store_no_partial_write : (small 0x50 8 .eax 0).memWrite 13 [1, 2, 3, 4] = .error ⟨13, 4⟩ := rfl
theorem test_outcome_codes :
    [Report.ok, .unknownOpcode 0, .outOfBounds ⟨0, 0⟩, .unknownRegister (.index 9), .capacityExceeded 9 8,
      .refused].map Report.code = [0, 1, 2, 3, 4, 5] := by decide

/-! ### V-INIT and V-PORT -/

/-- Options whose `regs` names the three registers that `init` sets itself. -/
def someOptions : InitOptions :=
  { stack := [0, 0, 0, 0], start := 3, regs := [("eax", 5), ("esp", 100), ("ebp", 100), ("eip", 7)] }

theorem test_init_layout_and_start_win :
    [Reg.eax, .esp, .ebp, .eip].map ((State.constructed 16 0).init someOptions).get = [5, 4, 4, 3] := by decide
theorem test_init_image_order :
    ((State.constructed 16 0).init { text := [0x50, 0x51], data := [0xAA], bss := [0, 0], stack := [0, 0, 0, 0] }).bytesAt 0 9 =
      [0x50, 0x51, 0xAA, 0, 0, 0, 0, 0, 0] := by decide
theorem test_init_capacity_exceeded :
    ((State.constructed 8 0).init { text := [0x50], stack := [0, 0, 0, 0, 0, 0, 0, 0] }).report =
      some (.capacityExceeded 9 8) := by decide
theorem test_init_unknown_register_first :
    ((State.constructed 0 0).init { regs := [("eflags", 1)], text := [0x50] }).report =
      some (.unknownRegister (.name "eflags")) := by decide
theorem test_second_init_refused : (State.reset.init {}).report = some .refused := by decide
theorem test_port_index_nine_unknown : State.reset.portGet 9 = .error (.unknownRegister (.index 9)) := rfl
theorem test_construct_refused : construct 4294967297 0 = none := by decide

/-- P2, first program: `push eax` twice, the second out of bounds ends the run. -/
theorem test_run_out_of_stack :
    (drive .stop 3 ((State.constructed 16 0).init
      { text := [0x50, 0x50], stack := [0, 0, 0, 0], regs := [("eax", 0xCAFEBABE)] })).1 = .fault ⟨-2, 4⟩ := by decide

/-! ### Host interface: a placed instruction runs first after reset -/

theorem test_withFetchWord_runs_it (i : Instr) :
    step (State.reset.withFetchWord 8 (encode i).toNat) =
      exec i ((State.reset.placeByte (encode i)).advance.emitTrace (encode i)
        ⟨encode i, .push, "push", [i.operand], i⟩) := by
  have h : tableByte 8 (encode i).toNat = encode i := by cases i <;> decide
  rw [State.withFetchWord, h]
  exact step_placeByte_entry State.reset (decode_of_encode i)

/-! ### Witnesses: states and operands that meet the hypotheses of the statements -/

/-- Ready, fetch in bounds, an entry at `eip`, room for two pushes. -/
theorem witness_entry_with_room :
    (small 0x50 8 .eax 1).phase = .ready ∧ FetchInBounds (small 0x50 8 .eax 1) ∧
      decode (opcodeByte (small 0x50 8 .eax 1)) = .entry ⟨0x50, .push, "push", [.eax], .pushEax⟩ ∧
      StackRoom (small 0x50 8 .eax 1) 8 ∧ StackRoom (small 0x50 8 .eax 1) 4 := by decide

/-- An entry without room: below the boundary at 3, above it at 17. -/
theorem witness_no_room : ¬StackRoom (small 0x50 3 .eax 1) 4 ∧ ¬StackRoom (small 0x50 17 .eax 1) 4 ∧
    StackRoom (small 0x50 4 .eax 1) 4 ∧ StackRoom (small 0x50 16 .eax 1) 4 := by decide

/-- The byte ranges of the decoder meet at 0x4F, 0x50, 0x57 and 0x58. -/
theorem witness_decode_boundaries :
    decode 0x4F = .unknown 0x4F ∧ decode 0x58 = .unknown 0x58 ∧
      decode 0x50 = .entry ⟨0x50, .push, "push", [.eax], .pushEax⟩ ∧
      decode 0x57 = .entry ⟨0x57, .push, "push", [.edi], .pushEdi⟩ := by decide

/-- An unknown byte at `eip`, in bounds at the last address. -/
theorem witness_unknown :
    FetchInBounds { small 0x50 8 .eip 15 with mem := [(15, 0xFF)] } ∧
      decode (opcodeByte { small 0x50 8 .eip 15 with mem := [(15, 0xFF)] }) = .unknown 0xFF := by decide

/-- A fetch just out of bounds. -/
theorem witness_fetch_out_of_bounds :
    (small 0x50 8 .eip 16).phase = .ready ∧ ¬FetchInBounds (small 0x50 8 .eip 16) := by decide

/-- Phases in which `next` is refused. -/
theorem witness_refused_phases : (State.constructed 16 0).phase = .constructed ∧
    ({ State.reset with phase := .faulted } : State).phase = .faulted ∧
    ((State.constructed 0 0).init { text := [0x50] }).phase = .initFailed := by decide

/-- Every outcome of a step occurs (the hypotheses on `t.report`). -/
theorem witness_outcomes :
    (∃ t, step (small 0x50 8 .eax 1) = .next t ∧ t.report = some .ok) ∧
    (∃ t, step (small 0x90 8 .eax 1) = .next t ∧ t.report = some (.unknownOpcode 0x90)) ∧
    (∃ t, step (small 0x50 3 .eax 1) = .next t ∧ t.report = some (.outOfBounds ⟨-1, 4⟩)) ∧
    (∃ t, step (small 0x50 8 .eip 16) = .next t ∧ t.report = some (.outOfBounds ⟨16, 1⟩)) ∧
    (∃ t, step (State.constructed 16 0) = .next t ∧ t.report = some .refused) :=
  ⟨⟨_, rfl, rfl⟩, ⟨_, rfl, rfl⟩, ⟨_, rfl, rfl⟩, ⟨_, rfl, rfl⟩, ⟨_, rfl, rfl⟩⟩

/-- A push that changes `esp` and a byte of memory. -/
theorem witness_stack_changes : ∃ t, step (small 0x50 8 .eax 0x11223344) = .next t ∧
    t.get .esp ≠ (small 0x50 8 .eax 0x11223344).get .esp ∧
    Memory.lookup t.mem 4 ≠ Memory.lookup (small 0x50 8 .eax 0x11223344).mem 4 :=
  ⟨_, rfl, by decide, by decide⟩

/-- Two memories that differ, with one opcode byte. -/
theorem witness_same_opcode_byte :
    opcodeByte { small 0x50 8 .eax 1 with mem := [(0, 0x50), (9, 7)] } = opcodeByte (small 0x50 8 .eax 1) := by decide

/-- A push that overwrites the next opcode byte with an unknown one: `esp = 4`, `eip = 0`, `k = 1` (R68). -/
theorem witness_self_modifying :
    (small 0x50 4 .eax 0xC3F4F450).phase = .ready ∧ FetchInBounds (small 0x50 4 .eax 0xC3F4F450) ∧
      decode (opcodeByte (small 0x50 4 .eax 0xC3F4F450)) = .entry ⟨0x50, .push, "push", [.eax], .pushEax⟩ ∧
      StackRoom (small 0x50 4 .eax 0xC3F4F450) 4 ∧
      ((small 0x50 4 .eax 0xC3F4F450).get .eip).toNat + 1 = ((small 0x50 4 .eax 0xC3F4F450).get .esp).toNat - 4 + 1 ∧
      decode ((0xC3F4F450 : Word).extractLsb' (8 * 1) 8) = .unknown 0xF4 := by decide

/-- The invariant holds of a state that a step can leave, Ready with a push to run. -/
theorem witness_invariant :
    Inv { (small 0x50 8 .ebp 8) with base := 8 } ∧
      ∃ t, step { (small 0x50 8 .ebp 8) with base := 8 } = .next t ∧ t.report = some .ok :=
  ⟨⟨by decide, by decide, by decide, fun _ => ⟨by decide, by decide, by decide, by decide⟩, by decide⟩, _, rfl, rfl⟩

/-- Capacities at the boundaries: 0 and 2^32 construct, -1 and 2^32 + 1 do not. -/
theorem witness_capacities :
    construct 0 0 = some (State.constructed 0 0) ∧ construct 4294967296 0 = some (State.constructed 4294967296 0) ∧
      construct (-1) 0 = none ∧ construct 4294967297 0 = none := by decide

/-- The image of `witness_init_accepted` and its options. -/
def pushTwice : InitOptions := { text := [0x50, 0x90, 0x50], stack := [0, 0, 0, 0, 0], regs := [("eax", 5)] }

/-- `init` accepts options whose image fills the memory, one register named once, `start` in the image. -/
theorem witness_init_accepted : InitAccepts (State.constructed 8 0) pushTwice ∧
    (pushTwice.regs.map Prod.fst).Nodup ∧ (Reg.eax.name, (5 : Word)) ∈ pushTwice.regs ∧
    pushTwice.image[pushTwice.start.toNat]? = some 0x50 ∧
    decode 0x50 = .entry ⟨0x50, .push, "push", [.eax], .pushEax⟩ :=
  ⟨⟨rfl, by unfold NamesKnown; decide, by decide⟩, by decide, by decide, rfl, by decide⟩

/-- `init` options one byte too long, and options with an unknown name after a known one. -/
theorem witness_init_rejected :
    (State.constructed 7 0).memSize < pushTwice.image.length ∧ NamesKnown [("eax", 5)] ∧
      Reg.ofName? "eflags" = none ∧ ¬InitAccepts (State.constructed 7 0) pushTwice := by
  refine ⟨by decide, by unfold NamesKnown; decide, by decide, fun h => absurd h.2.2 (by decide)⟩

/-- A name outside the set of nine. -/
theorem witness_unknown_name : ∀ r : Reg, "eflags" ≠ r.name := by
  intro r
  cases r <;> decide

/-- Ready states two words below `base`, from which a step reports Ok, and UnknownOpcode. -/
theorem witness_two_words_below_base :
    (∃ t, step { small 0x50 8 .eax 1 with base := 16 } = .next t ∧ t.report = some .ok) ∧
    (∃ t, step { small 0x90 8 .eax 1 with base := 16 } = .next t ∧ t.report = some (.unknownOpcode 0x90)) ∧
    (small 0x50 8 .eax 1).phase = .ready ∧ ((small 0x50 8 .eax 1).get .esp).toNat + 4 * 2 = (16 : Word).toNat ∧
    (small 0x90 8 .eax 1).phase = .ready ∧ ((small 0x90 8 .eax 1).get .esp).toNat + 4 * 2 = (16 : Word).toNat :=
  ⟨⟨_, rfl, rfl⟩, ⟨_, rfl, rfl⟩, rfl, by decide, rfl, by decide⟩

/-- A run of two pushes with an unknown opcode skipped between them. -/
theorem witness_push_run : ∃ t, PushRun 2 ((State.constructed 8 0).init pushTwice) t :=
  ⟨_, .pushed (.skipped (.pushed (.start _) rfl rfl) rfl (b := 0x90) rfl) rfl rfl⟩

/-- A four-byte store at an unaligned address in bounds. -/
theorem witness_unaligned_store : ([1, 2, 3, 4] : List Byte).length = 4 ∧ (0 : Int) ≤ 11 ∧ (11 : Int) + 4 ≤ (small 0x50 8 .eax 0).memSize := by decide

end Sys2Proof.Tests
end

section
/-! PROOFS. The lifecycle phase (10_state.md R29): what construction, `init` and `next` each do to it. -/

namespace Sys2Proof.Machine

/-- What a `next` call reports fixes the phase it ran in and the phase it leaves: refused, OutOfBounds, UnknownOpcode, Ok. -/
theorem step_report_phase {s t : State} (h : step s = .next t) :
    (t.report = some .refused ∧ s.phase ≠ .ready ∧ t.phase = s.phase) ∨
    (∃ e, t.report = some (.outOfBounds e) ∧ s.phase = .ready ∧ t.phase = .faulted) ∨
    (∃ b, t.report = some (.unknownOpcode b) ∧ s.phase = .ready ∧ t.phase = .ready) ∨
    (t.report = some .ok ∧ s.phase = .ready ∧ t.phase = .ready) := by
  rcases step_cases s with ⟨hp, hs⟩ | ⟨hp, _, hs⟩ | ⟨hp, _, _, hs⟩ | ⟨e, hp, _, _, _, hs⟩ | ⟨e, hp, _, _, _, hs⟩ <;>
    cases hs.symm.trans h
  · exact .inl ⟨rfl, hp, rfl⟩
  · exact .inr (.inl ⟨_, rfl, hp, rfl⟩)
  · exact .inr (.inr (.inl ⟨_, rfl, hp, by simp [hp]⟩))
  · exact .inr (.inr (.inr ⟨by simp, hp, by simp [hp]⟩))
  · exact .inr (.inl ⟨_, rfl, hp, rfl⟩)

/-- A constructed CORE is in phase Constructed (R190). -/
theorem construct_phase {n : Int} {d : Nat} {s : State} (h : construct n d = some s) : s.phase = .constructed := by
  unfold construct at h
  split at h <;> cases h
  rfl

/-- A mapping that could be assigned names registers only (70_reset_and_hazards.md R196). -/
theorem State.namesKnown_of_assign {regs : List (String × Word)} :
    ∀ {s t : State}, s.assign regs = .ok t → NamesKnown regs := by
  induction regs with
  | nil => simp [NamesKnown]
  | cons p ps ih =>
    intro s t h
    cases hr : Reg.ofName? p.1 with
    | none => simp [State.assign, State.setNamed, hr] at h
    | some r =>
      simp only [State.assign, State.setNamed, hr] at h
      exact List.forall_mem_cons.2 ⟨by simp [hr], ih h⟩

/-- An accepted `init` enters Ready. -/
theorem State.init_phase_of_accepts {s : State} {o : InitOptions} (h : InitAccepts s o) :
    (s.init o).phase = .ready := by
  obtain ⟨t, _, hi⟩ := State.init_accepted h
  rw [hi, State.enterReady_phase]

/-- An `init` in Constructed that is not accepted enters InitFailed. -/
theorem State.init_phase_of_not_accepts {s : State} {o : InitOptions} (hc : s.phase = .constructed)
    (h : ¬InitAccepts s o) : (s.init o).phase = .initFailed := by
  rcases State.init_cases s o with ⟨hn, _⟩ | ⟨r, _, hi⟩ | ⟨t, _, hl, ha, _⟩
  · exact absurd hc hn
  · rw [hi]; rfl
  · exact absurd ⟨hc, State.namesKnown_of_assign ha, hl⟩ h

/-- An `init` outside Constructed keeps the phase. -/
theorem State.init_phase_of_not_constructed {s : State} {o : InitOptions} (h : s.phase ≠ .constructed) :
    (s.init o).phase = s.phase := by
  rw [State.init_refused h, State.refuse_phase]

/-- Settles O25: the clauses on a report of `next` are read off `step_report_phase`. -/
theorem lifecyclePhaseTransitions : Obligations.LifecyclePhaseTransitions := by
  refine ⟨fun _ _ _ => construct_phase, fun _ _ => State.init_phase_of_accepts,
    fun _ _ => State.init_phase_of_not_accepts, ?outOfBounds, ?unknown, ?ok, ?refused, ?notRefused, ?terminal,
    fun _ _ => State.init_phase_of_not_constructed⟩
  case terminal =>
    intro s t hp h
    have hn : s.phase ≠ .ready := by rcases hp with hp | hp <;> simp [hp]
    cases (step_of_not_ready hn).symm.trans h
    exact State.refuse_phase s
  -- In each clause the report either is the one asked for, and the phases stand beside it, or contradicts it.
  all_goals
    intro s t h
    rcases step_report_phase h with ⟨hr, hs, ht⟩ | ⟨_, hr, hs, ht⟩ | ⟨_, hr, hs, ht⟩ | ⟨hr, hs, ht⟩ <;>
      simp [hr, hs, ht]

end Sys2Proof.Machine
end

section
/-! PROOFS. The load/store unit (20_memory.md R51 to R58): bounds, the range a store covers, byte order, alignment. -/

namespace Sys2Proof.Machine

/-! ### Bounds -/

/-- Settles O17: `bytesAt` gives each byte of the range, and both sides of the bounds check are `memRead`'s own laws. -/
theorem loadIsBoundsChecked : Obligations.LoadIsBoundsChecked := by
  intro s a n
  refine ⟨fun h => ?_, State.memRead_error⟩
  exact ⟨s.bytesAt a.toNat n, State.memRead_ok h, s.bytesAt_length n a.toNat, fun _ hk => s.bytesAt_getElem? hk⟩

/-- Settles O18: the state written is `s` with the bytes inserted into its memory, read back inside the range and
skipped outside it. -/
theorem storeWritesItsRangeOnly : Obligations.StoreWritesItsRangeOnly := by
  intro s a bytes
  refine ⟨fun h => ⟨_, State.memWrite_ok h, ?covered, ?others, rfl⟩, State.memWrite_error⟩
  case covered =>
    intro k hk
    rw [State.readByte_store_inside rfl hk, List.getElem?_eq_getElem hk]
  case others =>
    exact fun _ hx => State.readByte_store_outside rfl rfl hx

/-! ### Byte order -/

/-- `bytes_le(v, 4)` written out (R55). -/
theorem bytesLE_four (v : Word) :
    bytesLE v 4 = [v.extractLsb' 0 8, v.extractLsb' 8 8, v.extractLsb' 16 8, v.extractLsb' 24 8] := by
  apply List.ext_getElem?
  intro k
  match k with
  | 0 | 1 | 2 | 3 => exact bytesLE_getElem? v (by decide)
  | k + 4 => rw [List.getElem?_eq_none (by simp), List.getElem?_eq_none (by simp)]

/-- Where the little-endian bytes of `v` were stored at `a`, the byte at `a + k` is `v[8k+7:8k]`. -/
theorem State.readByte_store_bytesLE {t : State} {m : Memory} {a n k : Nat} {v : Word}
    (hm : t.mem = Memory.insertBytes m a (bytesLE v n)) (hk : k < n) :
    t.readByte (a + k) = v.extractLsb' (8 * k) 8 := by
  have hlen : k < (bytesLE v n).length := by simpa using hk
  rw [State.readByte_store_inside hm hlen, ← Option.some_inj, ← List.getElem?_eq_getElem hlen, bytesLE_getElem? v hk]

/-- Settles O19: the stored bytes at `a + k` for `k` from 0 to 3. -/
theorem wordsAreStoredLittleEndian : Obligations.WordsAreStoredLittleEndian := by
  refine fun v => ⟨bytesLE_four v, fun s a h => ?_⟩
  have hw := State.memWrite_ok (s := s) (a := a) (bs := bytesLE v 4) (by rw [bytesLE_length]; omega)
  have hbyte {k : Nat} (hk : k < 4) := State.readByte_store_bytesLE
    (t := { s with mem := Memory.insertBytes s.mem a (bytesLE v 4) }) rfl hk
  exact ⟨_, hw, hbyte (k := 0) (by decide), hbyte (k := 1) (by decide), hbyte (k := 2) (by decide),
    hbyte (k := 3) (by decide)⟩

/-! ### Alignment -/

/-- Settles O21: the bounds are the only condition of a store and of the fetch. -/
theorem noAccessNeedsAlignment : Obligations.NoAccessNeedsAlignment := by
  refine ⟨fun s a bytes hlen ha hend => ⟨_, State.memWrite_ok ⟨ha, ?_⟩⟩, fun s h => ⟨_, State.fetch_ok h⟩⟩
  rw [hlen]
  exact hend

end Sys2Proof.Machine
end

section
/-! PROOFS. The opcode table (30_encoding.md R83, R84): which bytes it knows. -/

namespace Sys2Proof

/-- The known bytes end at 0x50 and 0x57 (R83). -/
theorem encode_toNat_range (i : Instr) : 0x50 ≤ (encode i).toNat ∧ (encode i).toNat ≤ 0x57 := by
  cases i <;> decide

/-- A byte that encodes no instruction is unknown (R84). -/
theorem decode_unknown_of_ne_encode {b : Byte} (h : ∀ i, b ≠ encode i) : decode b = .unknown b := by
  cases hd : decode b with
  | entry e => exact absurd (decode_entry hd).1 (h e.instr)
  | unknown u => rw [decode_unknown_eq hd]

/-- Settles O1: the eight rows are the instructions' encodings, and every encoding lies within 0x50 to 0x57. -/
theorem opcodeTableIsExactlyTheEightRows : Obligations.OpcodeTableIsExactlyTheEightRows := by
  refine ⟨decode_of_encode .pushEax, decode_of_encode .pushEcx, decode_of_encode .pushEdx, decode_of_encode .pushEbx,
    decode_of_encode .pushEsp, decode_of_encode .pushEbp, decode_of_encode .pushEsi, decode_of_encode .pushEdi,
    fun b hb => decode_unknown_of_ne_encode fun i hi => ?_⟩
  obtain ⟨hlo, hhi⟩ := encode_toNat_range i
  rw [← hi] at hlo hhi
  omega

end Sys2Proof
end

section
/-! PROOFS. The control unit (40_control_unit.md R100 to R112): fetch, decode, the outcome of each `next`, the end of a run. -/

namespace Sys2Proof.Machine

/-! ### The first outcome that applies -/

/-- Every number from 0x50 to 0x57 is an instruction's byte (R83). -/
theorem exists_encode_toNat_eq {n : Nat} (hlo : 0x50 ≤ n) (hhi : n ≤ 0x57) : ∃ i, (encode i).toNat = n := by
  interval_cases n
  exacts [⟨.pushEax, rfl⟩, ⟨.pushEcx, rfl⟩, ⟨.pushEdx, rfl⟩, ⟨.pushEbx, rfl⟩, ⟨.pushEsp, rfl⟩, ⟨.pushEbp, rfl⟩,
    ⟨.pushEsi, rfl⟩, ⟨.pushEdi, rfl⟩]

/-- A byte with no table entry lies outside 0x50 to 0x57. -/
theorem toNat_range_of_decode_unknown {b u : Byte} (h : decode b = .unknown u) : b.toNat < 0x50 ∨ 0x57 < b.toNat := by
  by_contra hb
  obtain ⟨i, hi⟩ := exists_encode_toNat_eq (n := b.toNat) (by omega) (by omega)
  rw [← BitVec.eq_of_toNat_eq hi, decode_of_encode] at h
  cases h

/-- A byte with a table entry lies within 0x50 to 0x57. -/
theorem toNat_range_of_decode_entry {b : Byte} {e : TableEntry} (h : decode b = .entry e) :
    ¬(b.toNat < 0x50 ∨ 0x57 < b.toNat) := by
  obtain ⟨hlo, hhi⟩ := encode_toNat_range e.instr
  rw [← (decode_entry h).1] at hlo hhi
  omega

/-- Settles O9: in each case of `step_cases` the conditions before the case's own fail, and its report is the one asked for. -/
theorem everyNextReturnsItsFirstOutcome : Obligations.EveryNextReturnsItsFirstOutcome := by
  intro s
  rcases step_cases s with ⟨hp, hs⟩ | ⟨hp, hf, hs⟩ | ⟨hp, hf, hd, hs⟩ | ⟨e, hp, hf, hd, hr, hs⟩ | ⟨e, hp, hf, hd, hr, hs⟩ <;>
    refine ⟨_, hs, ?_⟩
  · rw [if_pos hp, State.refuse_report]
  · rw [if_neg (not_not_intro hp), if_pos (Nat.not_le.1 hf), State.raise_report]
  · rw [if_neg (not_not_intro hp), if_neg (Nat.not_lt.2 hf), if_pos (toNat_range_of_decode_unknown hd),
      State.reportUnknown_report]
  · rw [if_neg (not_not_intro hp), if_neg (Nat.not_lt.2 hf), if_neg (toNat_range_of_decode_entry hd),
      if_neg (by omega), State.pushed_report]
  · rw [if_neg (not_not_intro hp), if_neg (Nat.not_lt.2 hf), if_neg (toNat_range_of_decode_entry hd),
      if_pos (by omega), State.raise_report, State.pushAddr, Nat.cast_ofNat]

/-! ### Fetch and decode -/

/-- `eip` moves past one byte modulo 2^32 (R102, D5). -/
theorem State.advance_eip_toNat (s : State) :
    (s.advance.get .eip).toNat = ((s.get .eip).toNat + 1) % 2 ^ 32 := by
  rw [State.advance_get_eip, BitVec.toNat_add]
  rfl

/-- Settles O8: the step is `advance` with the report and the record, and `advance` writes `eip` alone. -/
theorem unknownOpcodeOnlyAdvancesEip : Obligations.UnknownOpcodeOnlyAdvancesEip := by
  intro s b hp hf hd
  refine ⟨decode_unknown_eq hd, _, step_unknown hp hf hd, rfl, rfl, by simpa using hp, ?eip, ?others, by simp⟩
  case eip => rw [State.reportUnknown_get, State.advance_eip_toNat]
  case others =>
    intro r hr
    rw [State.reportUnknown_get, State.advance_get_of_ne s hr]

/-- Settles O5: `step_entry`, its handler state written out. -/
theorem stepRunsTheDecodedInstruction : Obligations.StepRunsTheDecodedInstruction :=
  fun _ _ => step_entry

/-- Settles O6: none of the three phases is Ready. -/
theorem nextIsRefusedOutsideReady : Obligations.NextIsRefusedOutsideReady := by
  intro s h
  refine step_of_not_ready ?_
  rcases h with h | h | h <;> simp [h]

/-- Settles O7: in bounds the state fetched into is `advance`; out of bounds the step raises. -/
theorem fetchReadsThenIncrementsEip : Obligations.FetchReadsThenIncrementsEip :=
  fun s hp => ⟨fun hf => ⟨s.advance, State.fetch_ok hf, s.advance_eip_toNat, fun _ => s.advance_get_of_ne, rfl⟩,
    step_fetch_outOfBounds hp⟩

/-! ### The end of a run -/

/-- A report that ends the run ends it in the state after the step. -/
theorem drive_succ_of_ends {policy : OnUnknown} {s t : State} {r : Report} {e : RunEnd} (k : Nat)
    (h : step s = .next t) (hr : t.report = some r) (he : runEnds policy r = some e) :
    drive policy (k + 1) s = (e, t) := by
  simp [drive, h, hr, he]

/-- A report that does not end the run leaves it to the calls that remain. -/
theorem drive_succ_of_continues {policy : OnUnknown} {s t : State} {r : Report} (k : Nat)
    (h : step s = .next t) (hr : t.report = some r) (he : runEnds policy r = none) :
    drive policy (k + 1) s = drive policy k t := by
  simp [drive, h, hr, he]

/-- Settles O38: which reports end a run is read off `runEnds`. -/
theorem runEndsWhereTheDriverRuleSays : Obligations.RunEndsWhereTheDriverRuleSays :=
  fun _ k _ _ => ⟨rfl, fun h =>
    ⟨fun _ hr => drive_succ_of_ends k h hr rfl,
      fun _ hr => ⟨drive_succ_of_ends k h hr rfl, drive_succ_of_continues k h hr rfl⟩,
      fun hr => drive_succ_of_continues k h hr rfl⟩⟩

end Sys2Proof.Machine
end

section
/-! PROOFS. The push-register family (41_push.md R130 to R139): the push primitive, and the eight instructions on top of it. -/

namespace Sys2Proof.Machine

/-! ### The push primitive -/

/-- A push that fits below `esp` leaves its bytes at the new `esp`. -/
theorem State.pushed_bytesAt {s : State} {bs : List Byte} (h : bs.length ≤ (s.get .esp).toNat) :
    (s.pushed bs).bytesAt ((s.get .esp).toNat - bs.length) bs.length = bs := by
  rw [← State.pushAddr_toNat h]
  exact State.bytesAt_store (State.pushed_mem s bs)

/-- A push that fits below `esp` leaves every byte outside `[esp - n, esp)` as it was. -/
theorem State.pushed_readByte_outside {s : State} {bs : List Byte} {x : Nat} (h : bs.length ≤ (s.get .esp).toNat)
    (hx : x < (s.get .esp).toNat - bs.length ∨ (s.get .esp).toNat ≤ x) :
    (s.pushed bs).readByte x = s.readByte x := by
  refine State.readByte_store_outside (State.pushed_mem s bs) (State.pushed_fill s bs) ?_
  rw [State.pushAddr_toNat h]
  omega

/-- After a push in bounds, a load at the new `esp` answers the bytes pushed. -/
theorem State.pushed_memRead {s : State} {bs : List Byte} (h : StackRoom s bs.length) :
    (s.pushed bs).memRead ((s.pushed bs).get .esp).toNat bs.length = .ok bs := by
  obtain ⟨hlow, hhigh⟩ := h
  rw [State.pushed_esp_toNat hlow, State.memRead_ok (by rw [State.pushed_memSize]; omega), Int.toNat_natCast,
    State.pushed_bytesAt hlow]

/-- Settles O14: with room the push completes in `State.pushed`, without room it raises. -/
theorem pushPrimitiveStoresItsBytes : Obligations.PushPrimitiveStoresItsBytes := by
  refine fun s bytes _ => ⟨fun h => ?_, State.push_outOfBounds⟩
  exact ⟨_, State.push_ok h, State.pushed_report s bytes, State.pushed_esp_toNat h.1, State.pushed_memRead h,
    fun _ => State.pushed_readByte_outside h.1, fun _ => State.pushed_get_of_ne s bytes, State.pushed_base s bytes,
    State.pushed_phase s bytes, State.pushed_memSize s bytes, State.pushed_fill s bytes⟩

/-! ### The eight instructions -/

/-- An instruction that fits below `esp` leaves the bytes of its register's old value at `esp - 4`, bits `[7:0]` lowest. -/
theorem State.pushed_operandBytes_bytesAt {s : State} (r : Reg) (h : 4 ≤ (s.get .esp).toNat) :
    (s.pushed (s.operandBytes r)).bytesAt ((s.get .esp).toNat - 4) 4 =
      [(s.get r).extractLsb' 0 8, (s.get r).extractLsb' 8 8, (s.get r).extractLsb' 16 8,
        (s.get r).extractLsb' 24 8] := by
  have hb := State.pushed_bytesAt (s := s) (bs := s.operandBytes r) (by simpa using h)
  rw [State.operandBytes_length] at hb
  exact hb.trans (bytesLE_four (s.get r))

/-- Settles O12: each triple is an instruction with its encoding and its register; for any instruction the push of its
register completes in `State.pushed` or raises. -/
theorem pushRegisterInstructions : Obligations.PushRegisterInstructions := by
  intro p hp
  obtain ⟨i, rfl⟩ : ∃ i : Instr, p = (encode i, i, i.operand) := by
    revert p
    simp only [List.forall_mem_cons]
    exact ⟨⟨.pushEax, rfl⟩, ⟨.pushEcx, rfl⟩, ⟨.pushEdx, rfl⟩, ⟨.pushEbx, rfl⟩, ⟨.pushEsp, rfl⟩, ⟨.pushEbp, rfl⟩,
      ⟨.pushEsi, rfl⟩, ⟨.pushEdi, rfl⟩, List.forall_mem_nil _⟩
  refine ⟨decode_of_encode i, fun s h => ⟨_, exec_ok h, State.pushed_report _ _, ?bytes, ?esp, ?others⟩,
    fun s h => exec_outOfBounds h⟩
  case bytes => exact State.pushed_operandBytes_bytesAt i.operand h.1
  case esp => simpa using State.pushed_esp_toNat (s := s) (bs := s.operandBytes i.operand) (by simpa using h.1)
  case others => exact fun _ => State.pushed_get_of_ne s _

end Sys2Proof.Machine
end

section
/-! PROOFS. Exceptions and the inspection port (60_exceptions.md R163, R166, R168, R175). -/

namespace Sys2Proof.Machine

/-! ### After OutOfBounds -/

/-- The two places a step raises OutOfBounds: at the fetch, before `eip` moves, or in the handler, past the opcode byte. -/
theorem step_outOfBounds_cases {s t : State} {e : OutOfBounds} (h : step s = .next t)
    (hr : t.report = some (.outOfBounds e)) :
    (¬FetchInBounds s ∧ t = s.noTrace.raise e) ∨ (FetchInBounds s ∧ ∃ row, t = (s.atHandler row).raise e) := by
  rcases step_cases s with ⟨_, hs⟩ | ⟨_, hf, hs⟩ | ⟨_, _, _, hs⟩ | ⟨_, _, _, _, _, hs⟩ | ⟨row, _, hf, _, _, hs⟩ <;>
    cases hs.symm.trans h
  · simp at hr
  · cases hr
    exact .inl ⟨hf, rfl⟩
  · simp at hr
  · simp at hr
  · cases hr
    exact .inr ⟨hf, row, rfl⟩

/-- Outside Ready any positive number of `next` calls leaves what one refused call leaves. -/
theorem drive_succ_of_not_ready (policy : OnUnknown) (k : Nat) {s : State} (h : s.phase ≠ .ready) :
    drive policy (k + 1) s = (.unfinished, s.refuse) := by
  induction k generalizing s with
  | zero => exact drive_succ_of_continues 0 (step_of_not_ready h) rfl rfl
  | succ k ih =>
    calc drive policy (k + 2) s
        = drive policy (k + 1) s.refuse := drive_succ_of_continues (k + 1) (step_of_not_ready h) rfl rfl
      _ = (.unfinished, s.refuse) := ih (s := s.refuse) h

/-- Settles O26: a fault at the fetch leaves the registers alone, one in the handler comes after `advance`; both enter
Faulted, where every call is refused. -/
theorem outOfBoundsFaultIsSticky : Obligations.OutOfBoundsFaultIsSticky := by
  intro s t e h hr
  rcases step_outOfBounds_cases h hr with ⟨hf, rfl⟩ | ⟨hf, row, rfl⟩
  case inl =>
    exact ⟨rfl, fun policy k => drive_succ_of_not_ready policy k (by simp), rfl, rfl, fun r _ => by simp,
      fun _ => by simp, fun hin => absurd hin hf⟩
  case inr =>
    refine ⟨rfl, fun policy k => drive_succ_of_not_ready policy k (by simp), by simp, by simp, fun r hne => ?_,
      fun hout => absurd hf hout, fun _ => ?_⟩
    · rw [State.raise_get, State.emitTrace_get, State.advance_get_of_ne s hne]
    · rw [State.raise_get, State.emitTrace_get, State.advance_eip_toNat]

/-! ### The inspection port -/

/-- The port's register indices end at 8 (R175). -/
theorem Reg.ofPortIndex?_eq_none : ∀ n : BitVec 4, 8 < n.toNat → Reg.ofPortIndex? n = none := by
  decide

/-- A name that is no register's is outside the closed set (R163). -/
theorem Reg.ofName?_eq_none {name : String} (h : ∀ r : Reg, name ≠ r.name) : Reg.ofName? name = none :=
  Option.eq_none_iff_forall_ne_some.2 fun r hr => h r (Reg.ofName?_some hr)

/-- Settles O36: the nine indices compute; the rest is which indices and names are registers', and the laws of `memRead`. -/
theorem inspectionPortReads : Obligations.InspectionPortReads := by
  refine fun s => ⟨rfl, rfl, rfl, rfl, rfl, rfl, rfl, rfl, rfl, ?index, ?named, ?unnamed, ?load⟩
  case index =>
    intro n hn
    rw [State.portGet, Reg.ofPortIndex?_eq_none n hn]
  case named =>
    intro r
    rw [State.getNamed, Reg.ofName?_name]
  case unnamed =>
    intro name hname
    rw [State.getNamed, Reg.ofName?_eq_none hname]
  case load =>
    intro a n
    by_cases h : 0 ≤ a ∧ a + n ≤ s.memSize
    · rw [State.portLoad, State.memRead_ok h, if_pos h]
    · rw [State.portLoad, State.memRead_error h, if_neg h]

end Sys2Proof.Machine
end

section
/-! PROOFS. Reset (70_reset_and_hazards.md R190 to R196): construction, and what `init` answers and leaves in each case. -/

namespace Sys2Proof.Machine

/-! ### Construction -/

/-- The legal capacities (R191). -/
theorem memSizeWellFormed_iff (n : Int) : memSizeWellFormed n = true ↔ 0 ≤ n ∧ n ≤ 4294967296 := by
  rw [memSizeWellFormed, decide_eq_true_iff, Config.maxMemSize]
  norm_num

/-- Construction zeroes every register (R190). -/
@[simp] theorem State.constructed_get (memSize fill : Nat) (r : Reg) : (State.constructed memSize fill).get r = 0 := by
  cases r <;> rfl

/-- Settles O31: a legal capacity is not negative, so the CORE constructed has it as its own. -/
theorem constructionByCapacity : Obligations.ConstructionByCapacity := by
  refine fun n d => ⟨fun h => ?legal, fun h => ?illegal⟩
  case legal =>
    exact ⟨State.constructed n.toNat d, if_pos ((memSizeWellFormed_iff n).2 h), Int.toNat_of_nonneg h.1, rfl,
      State.constructed_get _ _⟩
  case illegal => exact if_neg (mt (memSizeWellFormed_iff n).1 h)

/-! ### The image in memory -/

@[simp] theorem InitOptions.image_length (o : InitOptions) :
    o.image.length = o.text.length + o.data.length + o.bss.length + o.stack.length := by
  simp only [InitOptions.image, List.length_append]

/-- A segment of the bytes stored at `a` is read back where the bytes before it end. -/
theorem State.bytesAt_store_segment {t : State} {m : Memory} {a : Nat} {pre seg post : List Byte}
    (hm : t.mem = Memory.insertBytes m a (pre ++ seg ++ post)) : t.bytesAt (a + pre.length) seg.length = seg := by
  apply List.ext_getElem?
  intro k
  by_cases h : k < seg.length
  · have hin : pre.length + k < (pre ++ seg ++ post).length := by simp only [List.length_append]; omega
    rw [State.bytesAt_getElem? t h, Nat.add_assoc, State.readByte_store_inside hm hin]
    simp [h]
  · rw [List.getElem?_eq_none (by simpa using h), List.getElem?_eq_none (by simpa using h)]

/-- An accepted `init` stores the image from address 0 and keeps the draw of INIT_FILL (R194). -/
theorem State.init_accepted_mem {s : State} {o : InitOptions} (h : InitAccepts s o) :
    (s.init o).mem = Memory.insertBytes s.mem 0 o.image ∧ (s.init o).fill = s.fill := by
  obtain ⟨t, ht, hi⟩ := State.init_accepted h
  obtain ⟨hmem, _, _, _, hfill⟩ := State.assign_frame ht
  simp [hi, State.layout, hmem, hfill]

/-- An accepted `init` sets `base` to the end of the image (R194). -/
theorem State.init_accepted_base {s : State} {o : InitOptions} (h : InitAccepts s o) :
    (s.init o).base = baseOf o.image.length := by
  obtain ⟨t, _, hi⟩ := State.init_accepted h
  rw [hi, State.enterReady_base, State.layout]

/-- Below 2^32 `base` is the length itself (R27). -/
theorem baseOf_toNat {total : Nat} (h : total < 2 ^ 32) : (baseOf total).toNat = total := by
  rw [baseOf, if_pos h, BitVec.toNat_ofNat, Nat.mod_eq_of_lt h]

/-- Settles O32: each of the four parts is a segment of the image stored at 0, and the later bytes lie outside it. -/
theorem initLaysOutTheImage : Obligations.InitLaysOutTheImage := by
  intro s o hc hk
  rw [← o.image_length]
  refine ⟨fun hfits => ?fits, fun hlong => ?tooLong⟩
  case fits =>
    have ha : InitAccepts s o := ⟨hc, hk, hfits⟩
    obtain ⟨hmem, hfill⟩ := State.init_accepted_mem ha
    have hseg {pre seg post : List Byte} (himg : o.image = pre ++ seg ++ post) :
        (s.init o).bytesAt pre.length seg.length = seg := by
      rw [himg] at hmem
      simpa using State.bytesAt_store_segment hmem
    refine ⟨?text, ?data, ?bss, ?stack, fun x hx => ?later, fun hlt => ?base⟩
    case text => exact hseg (pre := []) (seg := o.text) (post := o.data ++ o.bss ++ o.stack) (by simp [InitOptions.image])
    case data => exact hseg (post := o.bss ++ o.stack) (by simp [InitOptions.image])
    case bss => simpa only [List.length_append] using hseg (pre := o.text ++ o.data) rfl
    case stack =>
      have himg : o.image = o.text ++ o.data ++ o.bss ++ o.stack ++ [] := (List.append_nil _).symm
      simpa only [List.length_append] using hseg himg
    case later => exact State.readByte_store_outside hmem hfill (.inr (by omega))
    case base => rw [State.init_accepted_base ha, baseOf_toNat hlt]
  case tooLong =>
    rw [State.init_capacityExceeded hc hk hlong]
    exact ⟨rfl, rfl⟩

/-! ### The registers -/

/-- The registers after an accepted `init`: those of the assigned mapping, but `eip` at `start`, `esp` and `ebp` at
`base` (R195). -/
theorem State.init_accepted_get {s : State} {o : InitOptions} (h : InitAccepts s o) :
    ∃ t, s.assign o.regs = .ok t ∧ ∀ r, (s.init o).get r =
      if r = .eip then o.start else if r = .esp ∨ r = .ebp then (s.init o).base else t.get r := by
  obtain ⟨t, ht, hi⟩ := State.init_accepted h
  refine ⟨t, ht, fun r => ?_⟩
  rw [hi, State.enterReady_get, State.enterReady_base, State.layout_get]

/-- An accepted `init` reports Ok. -/
theorem State.init_accepted_report {s : State} {o : InitOptions} (h : InitAccepts s o) :
    (s.init o).report = some .ok := by
  obtain ⟨t, _, hi⟩ := State.init_accepted h
  rw [hi, State.enterReady_report]

/-- With the register file as construction leaves it, every register reads 0 (R190). -/
theorem State.get_of_regs_zero {s : State} (h : s.regs = Regs.zero) (r : Reg) : s.get r = 0 :=
  (State.get_congr (s := State.constructed 0 0) h r).trans (State.constructed_get 0 0 r)

/-- Settles O33: outside `esp`, `ebp` and `eip` a register is the mapping's, so the laws of `assign` give its value. -/
theorem initSetsTheRegisters : Obligations.InitSetsTheRegisters := by
  intro s o ha hnd
  obtain ⟨t, ht, hget⟩ := State.init_accepted_get ha
  refine ⟨fun r hesp hebp heip => ?_, hget .esp, hget .ebp, hget .eip, State.init_phase_of_accepts ha,
    State.init_accepted_report ha⟩
  have hr : (s.init o).get r = t.get r := by simpa [hesp, hebp, heip] using hget r
  rw [hr]
  refine ⟨fun v hv => State.assign_get_named ht hnd hv, fun hother => ?_⟩
  rw [State.assign_get_other ht hother]
  exact ⟨rfl, fun hz => State.get_of_regs_zero hz r⟩

/-! ### A refused or failed `init` -/

/-- Settles O34: the three answers are `refuse` and `failInit`; after a failed `init` the phase is InitFailed, so the
step is refused. -/
theorem initFailsBeforeAnyChange : Obligations.InitFailsBeforeAnyChange := by
  refine fun s o => ⟨State.init_refused, fun hc _ _ _ => State.init_unknownRegister hc, State.init_capacityExceeded,
    fun hc hna => step_of_not_ready ?_⟩
  rw [State.init_phase_of_not_accepts hc hna]
  decide

end Sys2Proof.Machine
end

section
/-! PROOFS. Encoding (30_encoding.md R80 to R88): streams of instructions, and the decoder that reads the `reg` field. -/

namespace Sys2Proof

/-! ### Streams -/

/-- An instruction's byte at the front of a stream decodes to it, and decoding goes on behind it. -/
theorem decodeStream_encode_cons (i : Instr) (rest : List Byte) :
    decodeStream (encode i :: rest) = (i :: (decodeStream rest).1, (decodeStream rest).2) := by
  rw [decodeStream, decode_of_encode]

/-- Decoding stops at a byte with no table entry (R84). -/
theorem decodeStream_unknown_cons {b u : Byte} (rest : List Byte) (h : decode b = .unknown u) :
    decodeStream (b :: rest) = ([], b :: rest) := by
  rw [decodeStream, h]

/-- The bytes of a sequence of instructions decode to that sequence, whatever stands behind them. -/
theorem decodeStream_encodeAll_append (is : List Instr) (rest : List Byte) :
    decodeStream (encodeAll is ++ rest) = (is ++ (decodeStream rest).1, (decodeStream rest).2) := by
  induction is with
  | nil => rfl
  | cons i is ih =>
    change decodeStream (encode i :: (encodeAll is ++ rest)) = _
    rw [decodeStream_encode_cons, ih]
    rfl

/-- Encoding what a stream decodes to, and the bytes left after it, give the stream back. -/
theorem encodeAll_decodeStream_append (bytes : List Byte) :
    encodeAll (decodeStream bytes).1 ++ (decodeStream bytes).2 = bytes := by
  induction bytes with
  | nil => rfl
  | cons b rest ih =>
    cases hd : decode b with
    | unknown u => rw [decodeStream_unknown_cons rest hd]; rfl
    | entry e =>
      rw [(decode_entry hd).1, decodeStream_encode_cons]
      exact congrArg (encode e.instr :: ·) ih

/-- Settles O3: the first two clauses are `decodeStream_encodeAll_append` with nothing, and with an unknown byte, behind
the instructions. -/
theorem decodeAndEncodeOfStreamsAgree : Obligations.DecodeAndEncodeOfStreamsAgree := by
  refine ⟨fun is => ?nothing, fun is b rest hb => ?unknown, encodeAll_decodeStream_append⟩
  case nothing => simpa [decodeStream] using decodeStream_encodeAll_append is []
  case unknown => rw [decodeStream_encodeAll_append, decodeStream_unknown_cons rest hb, List.append_nil]

/-! ### The decoder by fields -/

/-- The field decoder reads an instruction's register from its encoding. -/
theorem decodeByFields_encode (i : Instr) : decodeByFields (encode i) = some i.operand := by
  cases i <;> rfl

/-- Every encoding number is some instruction's `reg` field (R82). -/
theorem Instr.exists_regField_eq : ∀ n : BitVec 3, ∃ i : Instr, i.regField = n
  | 0 => ⟨.pushEax, rfl⟩
  | 1 => ⟨.pushEcx, rfl⟩
  | 2 => ⟨.pushEdx, rfl⟩
  | 3 => ⟨.pushEbx, rfl⟩
  | 4 => ⟨.pushEsp, rfl⟩
  | 5 => ⟨.pushEbp, rfl⟩
  | 6 => ⟨.pushEsi, rfl⟩
  | 7 => ⟨.pushEdi, rfl⟩

/-- A byte of format PR encodes an instruction: its fixed bits and its `reg` field are the whole byte. -/
theorem exists_encode_eq_of_formatPR {b : Byte} (h : b.extractLsb' 3 5 = 0b01010#5) : ∃ i, encode i = b := by
  obtain ⟨i, hi⟩ := Instr.exists_regField_eq (b.extractLsb' 0 3)
  refine ⟨i, ?_⟩
  rw [encode, hi, ← h, BitVec.extractLsb'_append_extractLsb'_eq_extractLsb' (start₁ := 0) (len₁ := 3) rfl]
  exact BitVec.extractLsb'_eq_self

/-- Settles O2: a known byte is an encoding, and a byte of format PR, being an encoding, is known. -/
theorem fieldDecoderAgreesWithTable : Obligations.FieldDecoderAgreesWithTable := by
  refine fun b => ⟨fun e he => ?entry, fun u hu => ?unknown⟩
  case entry =>
    obtain ⟨hb, hrow⟩ := decode_entry he
    exact ⟨e.instr.operand, hb ▸ decodeByFields_encode e.instr, congrArg TableEntry.operands hrow⟩
  case unknown =>
    refine if_neg fun hformat => ?_
    obtain ⟨i, rfl⟩ := exists_encode_eq_of_formatPR hformat
    cases (decode_of_encode i).symm.trans hu

end Sys2Proof
end

section
/-! PROOFS. One step by its five outcomes, and what each leaves unchanged. -/

namespace Sys2Proof.Machine

/-! ### What the push of a register leaves -/

/-- The push of a register lowers `esp` by 4. -/
theorem State.pushed_operandBytes_esp {s : State} (r : Reg) (h : 4 ≤ (s.get .esp).toNat) :
    ((s.pushed (s.operandBytes r)).get .esp).toNat = (s.get .esp).toNat - 4 := by
  simpa using State.pushed_esp_toNat (s := s) (bs := s.operandBytes r) (by simpa using h)

/-- The push of a register stores its old value at `esp - 4`, little-endian. -/
theorem State.pushed_operandBytes_mem {s : State} (r : Reg) (h : 4 ≤ (s.get .esp).toNat) :
    (s.pushed (s.operandBytes r)).mem = Memory.insertBytes s.mem ((s.get .esp).toNat - 4) (bytesLE (s.get r) 4) := by
  have hmem := State.pushed_mem s (s.operandBytes r)
  rwa [State.operandBytes_length, State.pushAddr_toNat h] at hmem

/-! ### The state after a step -/

/-- The state in which a step completes the push of the row `e`. -/
abbrev State.afterPush (s : State) (e : TableEntry) : State :=
  (s.atHandler e).pushed ((s.atHandler e).operandBytes e.instr.operand)

/-- The five ways a step leaves `s`, with what led there: `step_cases` as named cases. -/
inductive StepResult (s : State) : State → Prop where
  | refused : s.phase ≠ .ready → StepResult s s.refuse
  | fetchOutOfBounds : s.phase = .ready → ¬FetchInBounds s →
      StepResult s (s.noTrace.raise ⟨(s.get .eip).toNat, 1⟩)
  | unknown : s.phase = .ready → FetchInBounds s → decode (opcodeByte s) = .unknown (opcodeByte s) →
      StepResult s (s.advance.reportUnknown (opcodeByte s))
  | pushed (e : TableEntry) : s.phase = .ready → FetchInBounds s → decode (opcodeByte s) = .entry e →
      StackRoom s 4 → StepResult s (s.afterPush e)
  | pushOutOfBounds (e : TableEntry) : s.phase = .ready → FetchInBounds s → decode (opcodeByte s) = .entry e →
      ¬StackRoom s 4 → StepResult s ((s.atHandler e).raise ⟨s.pushAddr 4, 4⟩)

/-- Every next state is one of the five. -/
theorem step_result {s t : State} (h : step s = .next t) : StepResult s t := by
  rcases step_cases s with ⟨hp, hs⟩ | ⟨hp, hf, hs⟩ | ⟨hp, hf, hd, hs⟩ | ⟨e, hp, hf, hd, hr, hs⟩ | ⟨e, hp, hf, hd, hr, hs⟩ <;>
    cases hs.symm.trans h
  · exact .refused hp
  · exact .fetchOutOfBounds hp hf
  · exact .unknown hp hf hd
  · exact .pushed e hp hf hd hr
  · exact .pushOutOfBounds e hp hf hd hr

/-- A completed push lowers `esp` by 4. -/
theorem State.afterPush_esp_toNat {s : State} (e : TableEntry) (h : StackRoom s 4) :
    ((s.afterPush e).get .esp).toNat = (s.get .esp).toNat - 4 :=
  State.pushed_operandBytes_esp (s := s.atHandler e) e.instr.operand h.1

/-- A completed push stores its register's old value below the old `esp`. -/
theorem State.afterPush_mem {s : State} (e : TableEntry) (h : StackRoom s 4) :
    (s.afterPush e).mem =
      Memory.insertBytes s.mem ((s.get .esp).toNat - 4) (bytesLE (s.get e.instr.operand) 4) := by
  have hget : (s.atHandler e).get e.instr.operand = s.get e.instr.operand := by
    rw [State.emitTrace_get, State.advance_get_of_ne s e.instr.operand_ne_eip]
  simpa [hget] using State.pushed_operandBytes_mem (s := s.atHandler e) e.instr.operand h.1

/-- A completed push leaves `eip` past the opcode byte. -/
@[simp] theorem State.afterPush_get_eip (s : State) (e : TableEntry) : (s.afterPush e).get .eip = s.get .eip + 1 := by
  rw [State.pushed_get_of_ne _ _ (by decide), State.emitTrace_get, State.advance_get_eip]

theorem State.afterPush_get_of_ne {s : State} (e : TableEntry) {r : Reg} (hesp : r ≠ .esp) (heip : r ≠ .eip) :
    (s.afterPush e).get r = s.get r := by
  rw [State.pushed_get_of_ne _ _ hesp, State.emitTrace_get, State.advance_get_of_ne s heip]

/-- Settles O23: refused, raised, advanced or pushed, the state keeps these fields. -/
theorem stepWritesOnlyEspAndEip : Obligations.StepWritesOnlyEspAndEip := by
  intro s t h
  cases step_result h with
  | refused _ => exact ⟨fun _ _ _ => State.refuse_get s _, rfl, rfl, rfl⟩
  | fetchOutOfBounds _ _ => exact ⟨fun _ _ _ => by simp, rfl, rfl, rfl⟩
  | unknown _ _ _ => exact ⟨fun _ _ hr => by simp [State.advance_get_of_ne s hr], by simp⟩
  | pushed e _ _ _ _ => exact ⟨fun _ => State.afterPush_get_of_ne e, by simp⟩
  | pushOutOfBounds e _ _ _ _ => exact ⟨fun _ _ hr => by simp [State.advance_get_of_ne s hr], by simp⟩

/-- A step reports Ok, lowers `esp` by 4 and stores four bytes between the new and the old `esp`, or keeps `esp` and
the memory. -/
theorem step_stack_cases {s t : State} (h : step s = .next t) :
    (t.report = some .ok ∧ StackRoom s 4 ∧ (t.get .esp).toNat + 4 = (s.get .esp).toNat ∧
      ∃ bytes : List Byte, bytes.length = 4 ∧ t.mem = Memory.insertBytes s.mem (t.get .esp).toNat bytes) ∨
    (t.get .esp = s.get .esp ∧ t.mem = s.mem) := by
  cases step_result h with
  | refused _ => exact .inr ⟨State.refuse_get s _, rfl⟩
  | fetchOutOfBounds _ _ => exact .inr (by simp)
  | unknown _ _ _ => exact .inr (by simp)
  | pushed e _ _ _ hroom =>
    have hesp := State.afterPush_esp_toNat e hroom
    have hmem := State.afterPush_mem e hroom
    rw [← hesp] at hmem
    exact .inl ⟨by simp, hroom, by rw [hesp]; exact Nat.sub_add_cancel hroom.1, _, bytesLE_length _ _, hmem⟩
  | pushOutOfBounds e _ _ _ _ => exact .inr (by simp)

/-- Settles O24: outside the four bytes a completed push stores, every address reads as before. -/
theorem stackChangesOnlyByCompletedPush : Obligations.StackChangesOnlyByCompletedPush := by
  intro s t h
  obtain ⟨_, _, _, hfill⟩ := stepWritesOnlyEspAndEip s t h
  rcases step_stack_cases h with ⟨hok, _, hesp, bytes, hlen, hmem⟩ | ⟨hesp, hmem⟩
  case inl =>
    refine ⟨fun _ => ⟨hok, hesp⟩, fun x hx => ?_⟩
    have hin : ¬(x < (t.get .esp).toNat ∨ (t.get .esp).toNat + bytes.length ≤ x) :=
      fun hout => hx (State.readByte_store_outside hmem hfill hout)
    exact ⟨hok, by omega, by omega, hesp⟩
  case inr => exact ⟨fun hne => absurd hesp hne, fun x hx => absurd (State.readByte_congr hmem hfill x) hx⟩

/-! ### `eip` and the trace record by outcome -/

/-- Settles O10: `eip` is as before where the step is refused or raises at the fetch, and `advance`'s in the other three
outcomes; the report tells which. -/
theorem eipAdvanceByOutcome : Obligations.EipAdvanceByOutcome := by
  intro s t h
  cases step_result h <;> simp

/-- An instruction emits no record of its own. -/
theorem exec_trace {i : Instr} {s t : State} (h : exec i s = .next t) : t.trace = s.trace := by
  rcases exec_cases i s with ⟨_, hs⟩ | ⟨_, hs⟩ <;> cases hs.symm.trans h
  · exact State.pushed_trace s _
  · exact State.raise_trace s _

/-- Settles O11: the record of an entry is the one emitted before its handler, which keeps it. -/
theorem traceRecordByOutcome : Obligations.TraceRecordByOutcome := by
  refine fun s t h => ⟨fun hnone => ?none, fun hp hf b hb => ?unknown, fun hp hf e he => ?entry⟩
  case none =>
    by_cases hp : s.phase = .ready
    · cases (step_fetch_outOfBounds hp (hnone.resolve_left (not_not_intro hp))).symm.trans h
      rfl
    · cases (step_of_not_ready hp).symm.trans h
      rfl
  case unknown =>
    cases (step_unknown hp hf hb).symm.trans h
    rfl
  case entry =>
    obtain ⟨_, hrow⟩ := decode_entry he
    have htrace := exec_trace ((step_entry hp hf he).symm.trans h)
    rw [hrow] at htrace
    exact ⟨e.instr.operand, congrArg TableEntry.operands hrow, htrace⟩

/-! ### The instruction that runs -/

/-- Ready with `eip = v` in bounds and the byte of the entry `e` there, the step runs `e`'s instruction. -/
theorem step_runs_entry {s : State} {v : Word} {b : Byte} {e : TableEntry} (hp : s.phase = .ready)
    (hf : FetchInBounds s) (hv : s.get .eip = v) (hb : s.readByte v.toNat = b) (hd : decode b = .entry e) :
    step s = exec e.instr { s.set .eip (v + 1) with
      trace := some (.executed b e.mnemonic e.handler e.operands) } := by
  subst hv hb
  exact step_entry hp hf hd

/-- A byte just stored is read back. -/
theorem State.readByte_insert (s : State) (a : Nat) (b : Byte) :
    State.readByte { s with mem := Memory.insert s.mem a b } a = b := by
  simp [State.readByte, Memory.lookup_insert]

/-- Settles O4: the fetch reads the encoding just stored, and it decodes to its instruction. -/
theorem storedEncodingIsTheInstructionRun : Obligations.StoredEncodingIsTheInstructionRun :=
  fun i s hp hf => step_runs_entry (s := { s with mem := Memory.insert s.mem (s.get .eip).toNat (encode i) })
    hp hf rfl (s.readByte_insert _ _) (decode_of_encode i)

/-! ### Memory and the opcode byte -/

/-- An instruction run on two memories answers states that differ only in memory; each address reads the same in both,
or in each as before. -/
theorem exec_withMem (i : Instr) (s : State) (m : Memory) :
    ∃ t t', exec i s = .next t ∧ exec i { s with mem := m } = .next t' ∧ t' = { t with mem := t'.mem } ∧
      ∀ x, t'.readByte x = t.readByte x ∨
        (t.readByte x = s.readByte x ∧ t'.readByte x = State.readByte { s with mem := m } x) := by
  by_cases hroom : StackRoom s 4
  case neg => exact ⟨_, _, exec_outOfBounds hroom, exec_outOfBounds hroom, rfl, fun _ => .inr ⟨rfl, rfl⟩⟩
  case pos =>
    refine ⟨_, _, exec_ok hroom, exec_ok hroom, rfl, fun x => ?_⟩
    have hmem := State.pushed_operandBytes_mem i.operand hroom.1
    have hmem' : (({ s with mem := m } : State).pushed (s.operandBytes i.operand)).mem =
        Memory.insertBytes m ((s.get .esp).toNat - 4) (bytesLE (s.get i.operand) 4) :=
      State.pushed_operandBytes_mem (s := { s with mem := m }) i.operand hroom.1
    have hlen := bytesLE_length (s.get i.operand) 4
    generalize bytesLE (s.get i.operand) 4 = bytes at hmem hmem' hlen
    by_cases hx : x < (s.get .esp).toNat - 4 ∨ (s.get .esp).toNat - 4 + bytes.length ≤ x
    · exact .inr ⟨State.readByte_store_outside hmem rfl hx,
        State.readByte_store_outside (s := { s with mem := m }) hmem' rfl hx⟩
    · obtain ⟨k, rfl⟩ := Nat.exists_eq_add_of_le (show (s.get .esp).toNat - 4 ≤ x by omega)
      have hk : k < bytes.length := by omega
      exact .inl ((State.readByte_store_inside hmem' hk).trans (State.readByte_store_inside hmem hk).symm)

/-- Settles O27: the byte at `eip` and what the memory is not part of choose the outcome; a handler then meets
`exec_withMem`. -/
theorem nextDependsOnlyOnTheOpcodeByte : Obligations.NextDependsOnlyOnTheOpcodeByte := by
  intro s m hb
  by_cases hp : s.phase = .ready
  case neg =>
    exact ⟨_, _, step_of_not_ready hp, step_of_not_ready (s := { s with mem := m }) hp, rfl, fun _ => .inr ⟨rfl, rfl⟩⟩
  by_cases hf : FetchInBounds s
  case neg =>
    exact ⟨_, _, step_fetch_outOfBounds hp hf, step_fetch_outOfBounds (s := { s with mem := m }) hp hf, rfl,
      fun _ => .inr ⟨rfl, rfl⟩⟩
  cases hd : decode (opcodeByte s) with
  | unknown u =>
    exact ⟨_, _, step_unknown hp hf hd, step_unknown (s := { s with mem := m }) hp hf ((congrArg decode hb).trans hd),
      rfl, fun _ => .inr ⟨rfl, rfl⟩⟩
  | entry e =>
    rw [step_runs_entry hp hf rfl rfl hd, step_runs_entry (s := { s with mem := m }) hp hf rfl hb hd]
    exact exec_withMem e.instr _ m

end Sys2Proof.Machine
end

section
/-! PROOFS. Pushes in a row and what they leave in memory (41_push.md R140, 20_memory.md R57, R68). -/

namespace Sys2Proof.Machine

/-- Settles O13: the frame of `State.pushed`; the four bytes stored are those at the push address. -/
theorem pushRegisterFrame : Obligations.PushRegisterFrame := by
  refine fun i _ s h => ⟨_, exec_ok h, fun r => State.pushed_get_of_ne s _, fun a ha x hx => ?_, by simp⟩
  refine State.readByte_store_outside (State.pushed_mem s _) (State.pushed_fill s _) ?_
  rwa [State.operandBytes_length, ha, Int.toNat_natCast]

/-- Settles O20: the load is in bounds, and its byte is the one stored at `k`. -/
theorem mixedWidthLoadSeesLittleEndian : Obligations.MixedWidthLoadSeesLittleEndian := by
  intro s i k h hk
  obtain ⟨hlow, hhigh⟩ := h
  refine ⟨_, exec_ok ⟨hlow, hhigh⟩, ?_⟩
  rw [State.pushed_operandBytes_esp i.operand hlow, ← Nat.cast_add,
    State.memRead_ok (by rw [State.pushed_memSize]; omega), Int.toNat_natCast, State.bytesAt, State.bytesAt,
    State.readByte_store_bytesLE (State.pushed_operandBytes_mem i.operand hlow) hk]

/-- Ranges that read alike give the same bytes. -/
theorem State.bytesAt_congr {s t : State} {a n : Nat} (h : ∀ x, a ≤ x → x < a + n → t.readByte x = s.readByte x) :
    t.bytesAt a n = s.bytesAt a n := by
  induction n generalizing a with
  | zero => rfl
  | succ n ih => rw [State.bytesAt, State.bytesAt, h a le_rfl (by omega), ih fun x _ _ => h x (by omega) (by omega)]

/-- The push of a register leaves the bytes of its old value at `esp - 4`. -/
theorem State.pushed_bytesAt_operand {s : State} (r : Reg) (h : 4 ≤ (s.get .esp).toNat) :
    (s.pushed (s.operandBytes r)).bytesAt ((s.get .esp).toNat - 4) 4 = bytesLE (s.get r) 4 :=
  (State.pushed_operandBytes_bytesAt r h).trans (bytesLE_four _).symm

/-- Settles O15: the second push stores below the first one's bytes. -/
theorem twoPushesStoreAdjacentWords : Obligations.TwoPushesStoreAdjacentWords := by
  rintro s i j ⟨hlow, hhigh⟩
  have hlow₁ : 4 ≤ (s.get .esp).toNat := by omega
  have hesp := State.pushed_operandBytes_esp i.operand hlow₁
  have hfirst := State.pushed_bytesAt_operand i.operand hlow₁
  have hexec := exec_ok (i := i) ⟨hlow₁, hhigh⟩
  have hsize := State.pushed_memSize s (s.operandBytes i.operand)
  generalize s.pushed (s.operandBytes i.operand) = t at hesp hfirst hexec hsize
  have hlow₂ : 4 ≤ (t.get .esp).toNat := by omega
  have hbelow : (t.get .esp).toNat - 4 = (s.get .esp).toNat - 8 := by omega
  refine ⟨t, _, hexec, exec_ok ⟨hlow₂, by omega⟩, ?esp, ?first, ?second⟩
  case esp => rw [State.pushed_operandBytes_esp j.operand hlow₂, hbelow]
  case first =>
    rw [← hfirst]
    exact State.bytesAt_congr fun x hx _ => State.pushed_readByte_outside (by simpa using hlow₂) (.inr (by omega))
  case second => rw [← hbelow, State.pushed_bytesAt_operand j.operand hlow₂]

/-- Settles O22: the new `eip` lies at byte `k` of the word pushed, and the next step is fetched from there. -/
theorem fetchSeesTheByteJustPushed : Obligations.FetchSeesTheByteJustPushed := by
  rintro s e k hp hf hd ⟨hlow, hhigh⟩ hk hcover
  obtain ⟨_, hrow⟩ := decode_entry hd
  have hstep : step s = .next (s.afterPush e) :=
    (step_entry hp hf hd).trans (exec_ok ⟨by simpa using hlow, by simpa using hhigh⟩)
  have heip : ((s.afterPush e).get .eip).toNat = (s.get .esp).toNat - 4 + k := by
    have hlt := (s.get .esp).isLt
    rw [State.afterPush_get_eip, ← s.advance_get_eip, s.advance_eip_toNat]
    omega
  have hbyte : opcodeByte (s.afterPush e) = (s.get e.instr.operand).extractLsb' (8 * k) 8 := by
    rw [opcodeByte, heip]
    exact State.readByte_store_bytesLE (State.afterPush_mem e ⟨hlow, hhigh⟩) hk
  refine ⟨e.instr.operand, s.afterPush e, congrArg TableEntry.operands hrow, hstep, hbyte, fun b hb => ?_⟩
  have hfetch : FetchInBounds (s.afterPush e) := by
    rw [FetchInBounds, heip, State.pushed_memSize, State.emitTrace_memSize, State.advance_memSize]
    omega
  exact ⟨_, step_unknown (by simpa using hp) hfetch ((congrArg decode hbyte).trans hb), State.reportUnknown_report _ b⟩

/-! ### Counting pushes -/

/-- Settles O39: a completed push lowers `esp` by 4, an unknown opcode keeps it, and no other step reports either. -/
theorem eachStepCountsItsPushBelowBase : Obligations.EachStepCountsItsPushBelowBase := by
  intro s t k hp hk h
  cases step_result h with
  | refused hn => exact absurd hp hn
  | fetchOutOfBounds _ _ => simp
  | unknown _ _ _ => exact ⟨by simp, fun _ _ => ⟨by simpa using hk, by simp, by simpa using hp⟩⟩
  | pushed e _ _ _ hroom =>
    have hesp := State.afterPush_esp_toNat e hroom
    have hbase : (s.afterPush e).base = s.base := by simp
    refine ⟨fun _ => ⟨?_, hbase, by simpa using hp⟩, by simp⟩
    rw [hesp, hbase]
    omega
  | pushOutOfBounds e _ _ _ _ => simp

/-- Along a run of pushes from a Ready state at `esp = base`, each push is counted below `base`. -/
theorem PushRun.esp_below_base {k : Nat} {s t : State} (run : PushRun k s t) (hp : s.phase = .ready)
    (he : s.get .esp = s.base) :
    t.base = s.base ∧ t.phase = .ready ∧ (t.get .esp).toNat + 4 * k = t.base.toNat := by
  induction run with
  | start => exact ⟨rfl, hp, by rw [he, Nat.mul_zero, Nat.add_zero]⟩
  | pushed _ h hr ih =>
    obtain ⟨hbase, hready, hcount⟩ := ih hp he
    obtain ⟨hcount', hbase', hready'⟩ := (eachStepCountsItsPushBelowBase _ _ _ hready hcount h).1 hr
    exact ⟨hbase'.trans hbase, hready', hcount'⟩
  | skipped _ h hr ih =>
    obtain ⟨hbase, hready, hcount⟩ := ih hp he
    obtain ⟨hcount', hbase', hready'⟩ := (eachStepCountsItsPushBelowBase _ _ _ hready hcount h).2 _ hr
    exact ⟨hbase'.trans hbase, hready', hcount'⟩

/-- Settles O16: an accepted `init` leaves Ready with `esp = base`, where `PushRun.esp_below_base` starts. -/
theorem espAfterKPushesIsBaseMinusFourK : Obligations.EspAfterKPushesIsBaseMinusFourK := by
  intro s t o k ha run
  obtain ⟨_, _, hget⟩ := State.init_accepted_get ha
  exact run.esp_below_base (State.init_phase_of_accepts ha) (hget .esp)

end Sys2Proof.Machine
end

section
/-! PROOFS. The invariant (10_state.md R33, R34): construction, `init` and reset establish it, every step keeps it. -/

namespace Sys2Proof.Machine

/-! ### A step -/

/-- A step keeps the canonical memory inside the capacity. -/
theorem step_keeps_memory {s t : State} (h : step s = .next t) (hw : Memory.wf s.mem)
    (hin : ∀ c ∈ s.mem, c.1 < s.memSize) : Memory.wf t.mem ∧ ∀ c ∈ t.mem, c.1 < t.memSize := by
  obtain ⟨_, _, hsize, _⟩ := stepWritesOnlyEspAndEip s t h
  rw [hsize]
  rcases step_stack_cases h with ⟨_, ⟨_, hhigh⟩, hesp, bytes, hlen, hmem⟩ | ⟨_, hmem⟩ <;> rw [hmem]
  · exact ⟨Memory.wf_insertBytes hw _, Memory.insertBytes_keys hin (by omega)⟩
  · exact ⟨hw, hin⟩

/-- A step keeps the stack relations: a push lowers `esp` by one word. -/
theorem StackInv.step {s t : State} (hs : StackInv s) (h : step s = .next t) : StackInv t := by
  obtain ⟨hregs, hbase, hsize, _⟩ := stepWritesOnlyEspAndEip s t h
  obtain ⟨hebp, hle, hfits, hwords⟩ := hs
  have hebp' : t.get .ebp = t.base := by rw [hregs .ebp (by decide) (by decide), hebp, hbase]
  rcases step_stack_cases h with ⟨_, _, hesp, _⟩ | ⟨hesp, _⟩
  · exact ⟨hebp', by rw [hbase]; omega, by rwa [hbase, hsize], by rw [hbase]; omega⟩
  · exact ⟨hebp', by rwa [hesp, hbase], by rwa [hbase, hsize], by rwa [hesp, hbase]⟩

/-- A refused call keeps the invariant. -/
theorem Inv.refuse {s : State} (hs : Inv s) : Inv s.refuse := by
  refine ⟨hs.memory, hs.inside, hs.capacity, fun hp => ?_, hs.idle⟩
  obtain ⟨hebp, hle, hfits, hwords⟩ := hs.stack hp
  exact ⟨hebp, hle, hfits, hwords⟩

/-- A step from Ready leaves Ready or Faulted. -/
theorem step_phase_of_ready {s t : State} (h : step s = .next t) (hp : s.phase = .ready) :
    t.phase = .ready ∨ t.phase = .faulted := by
  rcases step_report_phase h with ⟨_, hn, _⟩ | ⟨_, _, _, ht⟩ | ⟨_, _, _, ht⟩ | ⟨_, _, ht⟩
  · exact absurd hp hn
  · exact .inr ht
  · exact .inl ht
  · exact .inl ht

/-- Settles O28: from Ready the memory and the stack relations are kept and the idle phases are not reached; elsewhere
the call is refused. -/
theorem everyStepKeepsTheInvariant : Obligations.EveryStepKeepsTheInvariant := by
  intro s t hs h
  by_cases hp : s.phase = .ready
  case neg =>
    cases (step_of_not_ready hp).symm.trans h
    exact hs.refuse
  case pos =>
    obtain ⟨_, _, hsize, _⟩ := stepWritesOnlyEspAndEip s t h
    obtain ⟨hmem, hin⟩ := step_keeps_memory h hs.memory hs.inside
    refine ⟨hmem, hin, hsize ▸ hs.capacity, fun _ => (hs.stack (.inl hp)).step h, fun hidle => ?_⟩
    rcases step_phase_of_ready h hp with ht | ht <;> simp [ht] at hidle

/-! ### Construction and `init` -/

/-- What construction answers, and for which capacities (R190, R191). -/
theorem construct_eq_some {n : Int} {d : Nat} {s : State} (h : construct n d = some s) :
    (0 ≤ n ∧ n ≤ 4294967296) ∧ s = State.constructed n.toNat d := by
  unfold construct at h
  split at h
  next hn =>
    cases h
    exact ⟨(memSizeWellFormed_iff n).1 hn, rfl⟩
  next => cases h

/-- A constructed CORE of a legal capacity meets the invariant. -/
theorem State.constructed_inv {memSize : Nat} (fill : Nat) (h : memSize ≤ Config.maxMemSize) :
    Inv (State.constructed memSize fill) :=
  ⟨List.Pairwise.nil, List.forall_mem_nil _, h, by simp [State.constructed], fun _ => rfl⟩

/-- A failed `init` keeps the invariant: the registers are still zero. -/
theorem Inv.failInit {s : State} (hs : Inv s) (hc : s.phase = .constructed) (r : Report) : Inv (s.failInit r) :=
  ⟨hs.memory, hs.inside, hs.capacity, by simp [State.failInit], fun _ => hs.idle (.inl hc)⟩

/-- No value of `base` passes the end of the image. -/
theorem baseOf_toNat_le (total : Nat) : (baseOf total).toNat ≤ total := by
  by_cases h : total < 2 ^ 32
  · exact (baseOf_toNat h).le
  · exact (baseOf total).isLt.le.trans (Nat.not_lt.1 h)

/-- Right after the registers are set `esp` and `ebp` are at `base`. -/
theorem State.enterReady_stackInv {s : State} (v : Word) (h : s.base.toNat ≤ s.memSize) :
    StackInv (s.enterReady v) := by
  have hesp : (s.enterReady v).get .esp = (s.enterReady v).base := by simp [State.enterReady_get]
  refine ⟨by simp [State.enterReady_get], hesp ▸ le_rfl, by simpa using h, ?_⟩
  rw [hesp, Nat.sub_self]
  exact dvd_zero 4

/-- `init` with any options keeps the invariant. -/
theorem Inv.init {s : State} (hs : Inv s) (o : InitOptions) : Inv (s.init o) := by
  rcases State.init_cases s o with ⟨_, hi⟩ | ⟨r, hc, hi⟩ | ⟨t, _, hfits, ht, hi⟩ <;> rw [hi]
  · exact hs.refuse
  · exact hs.failInit hc r
  · obtain ⟨hmem, _, _, hsize, _⟩ := State.assign_frame ht
    have hbase : (t.layout o.image).base.toNat ≤ (t.layout o.image).memSize :=
      (baseOf_toNat_le _).trans (hsize ▸ hfits)
    refine ⟨?memory, ?inside, ?capacity, fun _ => State.enterReady_stackInv o.start hbase, by simp⟩
    case memory =>
      rw [State.enterReady_mem, State.layout, hmem]
      exact Memory.wf_insertBytes hs.memory 0
    case inside =>
      rw [State.enterReady_mem, State.enterReady_memSize, State.layout, hmem, hsize]
      exact Memory.insertBytes_keys hs.inside (by omega)
    case capacity =>
      rw [State.enterReady_memSize, State.layout, hsize]
      exact hs.capacity

/-- Settles O30: construction gives a legal capacity or nothing, and `init` is `Inv.init`. -/
theorem constructionAndInitEstablishTheInvariant : Obligations.ConstructionAndInitEstablishTheInvariant := by
  refine ⟨fun n d s h => ?_, fun s o hs => hs.init o⟩
  obtain ⟨hn, rfl⟩ := construct_eq_some h
  exact State.constructed_inv d (by rw [Config.maxMemSize]; omega)

/-! ### Reset -/

/-- `init` with its default options on the reset CORE as constructed is the reset state (log entry 11). -/
theorem State.constructed_init_default : (State.constructed Config.resetMemSize 0).init {} = State.reset := rfl

/-- Settles O29: reset is construction with a legal capacity, then `init`. -/
theorem invariantHoldsAtReset : Obligations.InvariantHoldsAtReset := by
  rw [Obligations.InvariantHoldsAtReset, ← State.constructed_init_default]
  exact (State.constructed_inv 0 le_rfl).init {}

/-- Settles O37: the registers are those of construction, and nothing has been stored. -/
theorem resetIsConstructionThenDefaultInit : Obligations.ResetIsConstructionThenDefaultInit :=
  ⟨State.constructed_init_default, State.get_of_regs_zero rfl, rfl, rfl, fun _ => rfl⟩

/-! ### The first step after `init` -/

/-- `init` keeps the capacity. -/
theorem State.init_memSize (s : State) (o : InitOptions) : (s.init o).memSize = s.memSize := by
  rcases State.init_cases s o with ⟨_, hi⟩ | ⟨r, _, hi⟩ | ⟨t, _, _, ht, hi⟩ <;> rw [hi]
  · rfl
  · rfl
  · obtain ⟨_, _, _, hsize, _⟩ := State.assign_frame ht
    rw [State.enterReady_memSize, State.layout, hsize]

/-- After an accepted `init` the image is read from address 0 (R194). -/
theorem State.init_accepted_readByte {s : State} {o : InitOptions} {k : Nat} {b : Byte} (h : InitAccepts s o)
    (hb : o.image[k]? = some b) : (s.init o).readByte k = b := by
  obtain ⟨hk, rfl⟩ := List.getElem?_eq_some_iff.1 hb
  simpa using State.readByte_store_inside (State.init_accepted_mem h).1 hk

/-- Settles O35: after an accepted `init` the phase is Ready, `eip` is `start`, and the image's byte stands there. -/
theorem firstStepRunsTheImageByteAtStart : Obligations.FirstStepRunsTheImageByteAtStart := by
  intro s o b e ha hb hd
  obtain ⟨_, _, hget⟩ := State.init_accepted_get ha
  have heip : (s.init o).get .eip = o.start := hget .eip
  obtain ⟨hk, _⟩ := List.getElem?_eq_some_iff.1 hb
  have hf : FetchInBounds (s.init o) := by
    rw [FetchInBounds, heip, State.init_memSize]
    exact Nat.succ_le_of_lt (hk.trans_le ha.2.2)
  exact step_runs_entry (State.init_phase_of_accepts ha) hf heip (State.init_accepted_readByte ha hb) hd

end Sys2Proof.Machine
end
